-- ==== Sys2Proof/Word.lean ====
section
/-! DEFINITION. The two word types of the core: bytes and 16-bit addresses (00_scope.md R6). -/

namespace Sys2Proof

/-- An 8-bit value: a register, an operand byte, a memory byte. `+` and `-` wrap modulo 256 (R6, R10). -/
abbrev Byte := BitVec 8

/-- A 16-bit address; `+` and `-` wrap modulo 65536 (R10, R29, R30). -/
abbrev Addr := BitVec 16

end Sys2Proof
end

