-- ==== Sys2Proof/Syntax.lean ====
section
/-! DEFINITION. The instruction set as syntax: registers, primitives, opcodes, and `Instr` with one constructor per row of
spec/opcode_table.json (30_encoding.md R87 to R89). Operand bytes stay bytes: an invalid register code is part of a defined
instruction (R92). -/

namespace Sys2Proof

/-- The seven registers an instruction can name (10_state.md R20, R21, R26). -/
inductive Reg where
  | A | B | C | D
  /-- Pointer low byte (R25). -/
  | L
  /-- Pointer high byte (R25). -/
  | H
  /-- The flag register (R26). -/
  | F
  deriving DecidableEq, Repr

/-- The twelve primitives (30_encoding.md R87). -/
inductive Primitive where
  | mov | lw | sw | lda | push | pop | jnz | add | adc | and | nor | cmp
  deriving DecidableEq, Repr

/-- What the opcode byte says: the tuple that `decode` of 30_encoding.md R89 returns. `imm` is the bit `I`; `reg` is the
field `RF`, 0 in every opcode but LW and SW (R81). -/
structure Opcode where
  prim : Primitive
  imm : Bool
  reg : Byte
  deriving DecidableEq, Repr

/-- One constructor per row of the opcode table, its operands in the order of the row. `d`, `s`, `a`, `rh`, `rl` are
register codes, `i`, `hi`, `lo` immediate bytes (30_encoding.md R88). -/
inductive Instr where
  | movRR (d s : Byte)
  | movRI (d i : Byte)
  | addRR (d s : Byte)
  | addRI (d i : Byte)
  | adcRR (d s : Byte)
  | adcRI (d i : Byte)
  | andRR (d s : Byte)
  | andRI (d i : Byte)
  | norRR (d s : Byte)
  | norRI (d i : Byte)
  | cmpRR (a s : Byte)
  | cmpRI (a i : Byte)
  | lwMR (r rh rl : Byte)
  | lwMI (r hi lo : Byte)
  | swMR (r rh rl : Byte)
  | swMI (r hi lo : Byte)
  | lda (hi lo : Byte)
  | pushSR (r : Byte)
  | pushSI (i : Byte)
  | popD (d : Byte)
  | jnzSR (r : Byte)
  | jnzSI (i : Byte)
  deriving DecidableEq, Repr

end Sys2Proof
end

