-- ==== Sys2Proof/Config.lean ====
section
/-! DEFINITION. The parameters the source leaves open (00_scope.md R7, R8) as plain data, the spec's default value of each,
and the values of the machine of `exec` and `step` (the defaults). Each default is the spec's own decision: logs 1 to 7, 16. -/

namespace Sys2Proof

/-- `P_REGDEC` (10_state.md R22, D3): how an operand byte selects a register. -/
inductive RegDec where
  /-- The byte is the code. -/
  | fullByte
  /-- Bits 2:0 of the byte are the code. -/
  | low3
  deriving DecidableEq, Repr

/-- `P_STACK` (41_data_movement.md R134, R135, D12): the stack discipline. -/
inductive StackMode where
  /-- Push: SP - 1, then write. Pop: read, then SP + 1. -/
  | predecPush
  /-- Push: write, then SP - 1. Pop: SP + 1, then read. -/
  | postdecPush
  deriving DecidableEq, Repr

/-- `P_ROM_WRITE` (20_memory.md R56, D15): the effect of a core write to ROM. -/
inductive RomWrite where
  | discard
  | store
  | abort
  deriving DecidableEq, Repr

/-- `P_ADD_CMP` (42_alu.md R156, D20): the operands of the flag phase of ADD and ADC. -/
inductive AddCmp where
  | postWrite
  | preWrite
  deriving DecidableEq, Repr

/-- `P_REGCODE` (10_state.md R22, D2): the 3-bit code of each register. -/
structure RegCodes where
  a : BitVec 3
  b : BitVec 3
  c : BitVec 3
  d : BitVec 3
  l : BitVec 3
  h : BitVec 3
  f : BitVec 3
  deriving DecidableEq, Repr

/-- `P_FLAGBITS` (10_state.md R26, D5): the bit number of each flag in F. -/
structure FlagBits where
  carry : Fin 8
  greater : Fin 8
  equal : Fin 8
  less : Fin 8
  deriving DecidableEq, Repr

/-- `P_OPCODE` (30_encoding.md R87, D8): the 4-bit identity of each primitive. -/
structure OpcodeIds where
  mov : BitVec 4
  lw : BitVec 4
  sw : BitVec 4
  lda : BitVec 4
  push : BitVec 4
  pop : BitVec 4
  jnz : BitVec 4
  add : BitVec 4
  adc : BitVec 4
  and : BitVec 4
  nor : BitVec 4
  cmp : BitVec 4
  deriving DecidableEq, Repr

/-- Every parameter of the machine, fixed for a run (10_state.md R39). `sentinel` is `P_SENTINEL` (R8, U20); `ramBase` and
`ioBase` are the region bounds (U23): ROM is below `ramBase`, RAM from there below `ioBase`, the I/O window the rest. -/
structure Params where
  regCode : RegCodes
  regDec : RegDec
  flagBits : FlagBits
  opcode : OpcodeIds
  stack : StackMode
  splAddr : Addr
  sphAddr : Addr
  romWrite : RomWrite
  addCmp : AddCmp
  origin : Addr
  sentinel : Byte
  ramBase : Addr
  ioBase : Addr
  deriving DecidableEq, Repr

/-- The defaults of 00_scope.md R7. -/
def Params.default : Params where
  regCode := { a := 0, b := 1, c := 2, d := 3, l := 4, h := 5, f := 6 }
  regDec := .fullByte
  flagBits := { carry := 0, greater := 1, equal := 2, less := 3 }
  opcode :=
    { mov := 0x1, lw := 0x2, sw := 0x3, lda := 0x4, push := 0x5, pop := 0x6,
      jnz := 0x7, add := 0x8, adc := 0x9, and := 0xA, nor := 0xB, cmp := 0xC }
  stack := .predecPush
  splAddr := 0xFFFE
  sphAddr := 0xFFFF
  romWrite := .abort
  addCmp := .postWrite
  origin := 0x8000
  sentinel := 0xFF
  ramBase := 0x8000
  ioBase := 0xFF00

/-- The parameters of the machine that `exec` and `step` are: the defaults (R7: "the value used by every example in this
spec"). -/
def Config.params : Params := Params.default

end Sys2Proof
end

