-- ==== Sys2Proof/Decode.lean ====
section
/-! DEFINITION. From bytes to instructions and back (30_encoding.md R80 to R92): the opcode's fields, the decoder (total,
rejecting by name), the encoder, and the length of an instruction. Everything takes the parameters `Params`. -/

namespace Sys2Proof

/-- The registers in the order of 10_state.md R22. -/
def Reg.all : List Reg := [.A, .B, .C, .D, .L, .H, .F]

/-- The primitives in the order of 30_encoding.md R87. -/
def Primitive.all : List Primitive :=
  [.mov, .lw, .sw, .lda, .push, .pop, .jnz, .add, .adc, .and, .nor, .cmp]

/-- The code of a register (10_state.md R22). -/
def RegCodes.of (k : RegCodes) : Reg → BitVec 3
  | .A => k.a
  | .B => k.b
  | .C => k.c
  | .D => k.d
  | .L => k.l
  | .H => k.h
  | .F => k.f

/-- The identity of a primitive (30_encoding.md R87). -/
def OpcodeIds.of (k : OpcodeIds) : Primitive → BitVec 4
  | .mov => k.mov
  | .lw => k.lw
  | .sw => k.sw
  | .lda => k.lda
  | .push => k.push
  | .pop => k.pop
  | .jnz => k.jnz
  | .add => k.add
  | .adc => k.adc
  | .and => k.and
  | .nor => k.nor
  | .cmp => k.cmp

/-- Bit 7 of the opcode, `I` (30_encoding.md R81). -/
def opcodeImm (b : Byte) : Bool := b.getLsbD 7

/-- Bits 6:4 of the opcode, `RF` (R81). -/
def opcodeReg (b : Byte) : Byte := (b >>> 4) &&& 7

/-- Bits 3:0 of the opcode, `ID` (R81). -/
def opcodeId (b : Byte) : BitVec 4 := b.extractLsb' 0 4

/-- The primitive with the identity `id`, if any. -/
def Params.primitiveOf (p : Params) (id : BitVec 4) : Option Primitive :=
  Primitive.all.find? (fun k => p.opcode.of k == id)

/-- Why bytes are no instruction. -/
inductive DecodeError where
  /-- The opcode byte is one of the undefined ones (R91). -/
  | undefinedOpcode (b : Byte)
  /-- The bytes end before the instruction does. -/
  | truncated
  deriving DecidableEq, Repr

/-- `decode(b)` of 30_encoding.md R89, case for case. -/
def decodeOpcode (p : Params) (b : Byte) : Except DecodeError Opcode :=
  match p.primitiveOf (opcodeId b) with
  | none => .error (.undefinedOpcode b)
  | some .lw => .ok ⟨.lw, opcodeImm b, opcodeReg b⟩
  | some .sw => .ok ⟨.sw, opcodeImm b, opcodeReg b⟩
  | some k =>
    if opcodeReg b ≠ 0 then .error (.undefinedOpcode b)
    else match k, opcodeImm b with
      | .lda, false => .error (.undefinedOpcode b)
      | .pop, true => .error (.undefinedOpcode b)
      | k, i => .ok ⟨k, i, 0⟩

/-- The length of an instruction in bytes, from its primitive alone (R90). -/
def Primitive.length : Primitive → Nat
  | .push => 2
  | .pop => 2
  | .jnz => 2
  | .mov => 3
  | .lw => 3
  | .sw => 3
  | .lda => 3
  | .add => 3
  | .adc => 3
  | .and => 3
  | .nor => 3
  | .cmp => 3

/-- `needs2(IR)`: exactly when `decode(IR)` has length 3 (R90). -/
def needs2 (p : Params) (ir : Byte) : Bool :=
  match decodeOpcode p ir with
  | .ok o => o.prim.length == 3
  | .error _ => false

/-- The instruction that an opcode and its operand bytes are (30_encoding.md R82, R88). A 2-byte instruction ignores the
second operand byte (10_state.md R32). LDA has only the immediate form and POP only the register form. -/
def Opcode.instr (o : Opcode) (arg1 arg2 : Byte) : Instr :=
  match o.prim, o.imm with
  | .mov, false => .movRR arg1 arg2
  | .mov, true => .movRI arg1 arg2
  | .lw, false => .lwMR o.reg arg1 arg2
  | .lw, true => .lwMI o.reg arg1 arg2
  | .sw, false => .swMR o.reg arg1 arg2
  | .sw, true => .swMI o.reg arg1 arg2
  | .lda, _ => .lda arg1 arg2
  | .push, false => .pushSR arg1
  | .push, true => .pushSI arg1
  | .pop, _ => .popD arg1
  | .jnz, false => .jnzSR arg1
  | .jnz, true => .jnzSI arg1
  | .add, false => .addRR arg1 arg2
  | .add, true => .addRI arg1 arg2
  | .adc, false => .adcRR arg1 arg2
  | .adc, true => .adcRI arg1 arg2
  | .and, false => .andRR arg1 arg2
  | .and, true => .andRI arg1 arg2
  | .nor, false => .norRR arg1 arg2
  | .nor, true => .norRI arg1 arg2
  | .cmp, false => .cmpRR arg1 arg2
  | .cmp, true => .cmpRI arg1 arg2

/-- Reads one instruction from the front of a byte string; answers it and the bytes after it. -/
def decode (p : Params) : List Byte → Except DecodeError (Instr × List Byte)
  | [] => .error .truncated
  | b :: rest =>
    match decodeOpcode p b with
    | .error e => .error e
    | .ok o =>
      match o.prim.length, rest with
      | 2, arg1 :: rest => .ok (o.instr arg1 0, rest)
      | 3, arg1 :: arg2 :: rest => .ok (o.instr arg1 arg2, rest)
      | _, _ => .error .truncated

/-- The opcode of an instruction: its row of the table. -/
def Instr.opcode : Instr → Opcode
  | .movRR _ _ => ⟨.mov, false, 0⟩
  | .movRI _ _ => ⟨.mov, true, 0⟩
  | .addRR _ _ => ⟨.add, false, 0⟩
  | .addRI _ _ => ⟨.add, true, 0⟩
  | .adcRR _ _ => ⟨.adc, false, 0⟩
  | .adcRI _ _ => ⟨.adc, true, 0⟩
  | .andRR _ _ => ⟨.and, false, 0⟩
  | .andRI _ _ => ⟨.and, true, 0⟩
  | .norRR _ _ => ⟨.nor, false, 0⟩
  | .norRI _ _ => ⟨.nor, true, 0⟩
  | .cmpRR _ _ => ⟨.cmp, false, 0⟩
  | .cmpRI _ _ => ⟨.cmp, true, 0⟩
  | .lwMR r _ _ => ⟨.lw, false, r⟩
  | .lwMI r _ _ => ⟨.lw, true, r⟩
  | .swMR r _ _ => ⟨.sw, false, r⟩
  | .swMI r _ _ => ⟨.sw, true, r⟩
  | .lda _ _ => ⟨.lda, true, 0⟩
  | .pushSR _ => ⟨.push, false, 0⟩
  | .pushSI _ => ⟨.push, true, 0⟩
  | .popD _ => ⟨.pop, false, 0⟩
  | .jnzSR _ => ⟨.jnz, false, 0⟩
  | .jnzSI _ => ⟨.jnz, true, 0⟩

/-- The operand bytes of an instruction, first byte first (30_encoding.md R88). -/
def Instr.operands : Instr → List Byte
  | .movRR d s => [d, s]
  | .movRI d i => [d, i]
  | .addRR d s => [d, s]
  | .addRI d i => [d, i]
  | .adcRR d s => [d, s]
  | .adcRI d i => [d, i]
  | .andRR d s => [d, s]
  | .andRI d i => [d, i]
  | .norRR d s => [d, s]
  | .norRI d i => [d, i]
  | .cmpRR a s => [a, s]
  | .cmpRI a i => [a, i]
  | .lwMR _ rh rl => [rh, rl]
  | .lwMI _ hi lo => [hi, lo]
  | .swMR _ rh rl => [rh, rl]
  | .swMI _ hi lo => [hi, lo]
  | .lda hi lo => [hi, lo]
  | .pushSR r => [r]
  | .pushSI i => [i]
  | .popD d => [d]
  | .jnzSR r => [r]
  | .jnzSI i => [i]

/-- The length of an instruction in bytes (30_encoding.md R90). -/
def Instr.length (i : Instr) : Nat := i.opcode.prim.length

/-- The opcode byte: `I` in bit 7, `RF` in bits 6:4, `ID` in bits 3:0 (R81). -/
def encodeOpcode (p : Params) (o : Opcode) : Byte :=
  (if o.imm then (0x80 : Byte) else 0) ||| ((o.reg &&& 7) <<< 4) ||| (p.opcode.of o.prim).setWidth 8

/-- The bytes of an instruction, opcode first (R88). -/
def encode (p : Params) (i : Instr) : List Byte := encodeOpcode p i.opcode :: i.operands

/-- Byte `k` of a number whose bits count from the first byte of an instruction. -/
def byteOf (w k : Nat) : Byte := BitVec.ofNat 8 (w >>> (8 * k))

/-- The three bytes an instruction word stands for, every bit at or above `nbits` zero. -/
def wordBytes (nbits w : Nat) : List Byte :=
  let v := w % 2 ^ nbits
  [byteOf v 0, byteOf v 1, byteOf v 2]

/-- What the decoder reads from an instruction whose bits are `w`, numbered as spec/opcode_table.json numbers them: bit 0
is the least significant bit of the first byte. -/
def decodeTableWord (nbits w : Nat) : Option Instr :=
  match decode Config.params (wordBytes nbits w) with
  | .ok (i, _) => some i
  | .error _ => none

end Sys2Proof
end

