-- ==== Sys2Proof/Machine/State.lean ====
section
/-! DEFINITION. The state of the core as plain data: every item of 10_state.md R38, the record of anomalies (60_exceptions.md
R201), the recorded value of the abort (R202) and the record of I/O events (40_cycle.md R111); the reasons a step can stop;
the state after reset. -/

namespace Sys2Proof.Machine

/-- The phase counter, 0 to 6 (10_state.md R33). -/
inductive Phase where
  | p0 | p1 | p2 | p3 | p4
  /-- In the counter's range, set by no rule (40_cycle.md R124). -/
  | p5
  /-- In the counter's range, set by no rule (40_cycle.md R124). -/
  | p6
  deriving DecidableEq, Repr

/-- The registers an instruction can name (10_state.md R20, R21, R26). -/
structure RegFile where
  a : Byte
  b : Byte
  c : Byte
  d : Byte
  l : Byte
  h : Byte
  f : Byte
  deriving DecidableEq, Repr

/-- The memory arrays as one list over the address space (20_memory.md R50, R52): addresses strictly rising, no entry
equal to what an unlisted address reads as. -/
abbrev Memory := List Host.Cell

/-- The kinds of anomaly (60_exceptions.md R201). -/
inductive AnomalyKind where
  | invalidRegisterRead
  | invalidRegisterWrite
  deriving DecidableEq, Repr

/-- One recorded anomaly: the code, and PC and phase at the access (60_exceptions.md R201). -/
structure Anomaly where
  kind : AnomalyKind
  code : Byte
  pc : Addr
  phase : Phase
  deriving DecidableEq, Repr

/-- The recorded value of an abort, the spec's `Fault(kind, info)` (60_exceptions.md R202). -/
inductive Abort where
  /-- An opcode byte that is undefined, with its address. -/
  | undefinedOpcode (addr : Addr) (byte : Byte)
  /-- A core write to ROM under `P_ROM_WRITE = fault`, with the address. -/
  | romWrite (addr : Addr)
  /-- A step at phase 5 or 6. -/
  | badPhase (phase : Phase)
  deriving DecidableEq, Repr

/-- The whole state. -/
structure State where
  /-- A, B, C, D, L, H, F. -/
  regs : RegFile
  /-- PC bits 15:8 (R29). -/
  pch : Byte
  /-- PC bits 7:0 (R29). -/
  pcl : Byte
  /-- SP bits 15:8 (R30). -/
  sph : Byte
  /-- SP bits 7:0 (R30). -/
  spl : Byte
  /-- The instruction register (R31). -/
  ir : Byte
  /-- The first operand-argument register (R32). -/
  arg1 : Byte
  /-- The second operand-argument register (R32). -/
  arg2 : Byte
  /-- The phase the next step performs (R33). -/
  phase : Phase
  /-- The byte at 0xFF00 as it was at the last phase 0 (R34). -/
  ioPrev : Byte
  /-- ROM, RAM and I/O arrays (R36). -/
  mem : Memory
  /-- The core has aborted (R35). -/
  faulted : Bool
  /-- What the abort recorded (60_exceptions.md R202). DESIGN CHOICE, log 8: an output kept in the state. -/
  fault : Option Abort
  /-- The anomalies so far, oldest first (60_exceptions.md R201). -/
  anomalies : List Anomaly
  /-- The values of the I/O events signalled so far, oldest first (40_cycle.md R111). DESIGN CHOICE, log 10. -/
  ioEvents : List Byte
  /-- The first operand of ADD or ADC as read in phase 3, "held by the model" under `pre_write` (42_alu.md R156), log 7. -/
  addA : Byte
  /-- The second operand of ADD or ADC as read in phase 3, likewise. -/
  addB : Byte
  deriving DecidableEq, Repr

/-- Why a step stops with no state. An abort of the spec is no such reason: the spec gives the state it leaves (log 8). -/
inductive Fault where
  /-- Raised by step in phase 2, 3 or 4 when IR holds no instruction that executes in that phase. No rule describes such a
  state and no run from reset reaches one (DESIGN CHOICE, log 9). Safe: the machine stops where the spec gives nothing. -/
  | noInstruction (phase : Phase) (ir : Byte)
  deriving DecidableEq, Repr

/-- Why an instruction has no meaning. -/
inductive Refusal where
  /-- Raised by an arm of exec whose instruction has no meaning yet; no arm is left that does so. Safe. -/
  | notModelled (mnemonic : String)
  deriving DecidableEq, Repr

/-- The machine right after reset: everything zero, the records empty (10_state.md R38, 70_reset_and_hazards.md R220). -/
def State.reset : State where
  regs := { a := 0, b := 0, c := 0, d := 0, l := 0, h := 0, f := 0 }
  pch := 0
  pcl := 0
  sph := 0
  spl := 0
  ir := 0
  arg1 := 0
  arg2 := 0
  phase := .p0
  ioPrev := 0
  mem := []
  faulted := false
  fault := none
  anomalies := []
  ioEvents := []
  addA := 0
  addB := 0

end Sys2Proof.Machine
end

