-- ==== Sys2Proof/Machine/Ops.lean ====
section
/-! DEFINITION. The named operations over registers, memory and the two records: the primitives of 00_scope.md R11. An
operation that can abort answers `Except State State`: `.ok` is the state to go on from, `.error` the state the abort
leaves. -/

namespace Sys2Proof.Machine

/-- `{hi, lo}` (00_scope.md R10, 20_memory.md R51). -/
def joinBytes (hi lo : Byte) : Addr := hi ++ lo

/-- Bits 15:8. -/
def hiByte (a : Addr) : Byte := a.extractLsb' 8 8

/-- Bits 7:0. -/
def loByte (a : Addr) : Byte := a.extractLsb' 0 8

/-- The program counter (10_state.md R29). -/
def State.pc (s : State) : Addr := joinBytes s.pch s.pcl

/-- Sets the program counter. -/
def State.setPc (s : State) (v : Addr) : State := { s with pch := hiByte v, pcl := loByte v }

/-- The stack pointer (10_state.md R30). -/
def State.sp (s : State) : Addr := joinBytes s.sph s.spl

/-- Sets the stack pointer. -/
def State.setSp (s : State) (v : Addr) : State := { s with sph := hiByte v, spl := loByte v }

/-- The value of a named register. -/
def RegFile.get (x : RegFile) : Reg → Byte
  | .A => x.a
  | .B => x.b
  | .C => x.c
  | .D => x.d
  | .L => x.l
  | .H => x.h
  | .F => x.f

/-- Writes a named register. -/
def RegFile.set (x : RegFile) (r : Reg) (v : Byte) : RegFile :=
  match r with
  | .A => { x with a := v }
  | .B => { x with b := v }
  | .C => { x with c := v }
  | .D => { x with d := v }
  | .L => { x with l := v }
  | .H => { x with h := v }
  | .F => { x with f := v }

/-- Writes a named register of the state. -/
def State.setReg (s : State) (r : Reg) (v : Byte) : State := { s with regs := s.regs.set r v }

/-- The register a code names, if it is valid (10_state.md R22). -/
def regNamed (p : Params) (c : Byte) : Option Reg :=
  Reg.all.find? (fun r => (p.regCode.of r).setWidth 8 == c)

/-- The code that an operand byte is, by `P_REGDEC` (10_state.md R22, 30_encoding.md R84). The field `RF` is a code as it
is. -/
def operandCode (p : Params) (b : Byte) : Byte :=
  match p.regDec with
  | .fullByte => b
  | .low3 => b &&& 7

/-- `record Anomaly(kind, c)`, with PC and phase at the access (60_exceptions.md R201). -/
def State.record (s : State) (kind : AnomalyKind) (c : Byte) : State :=
  { s with anomalies := s.anomalies ++ [⟨kind, c, s.pc, s.phase⟩] }

/-- `x[c]` read (10_state.md R23): an invalid code reads the sentinel and is recorded. -/
def readReg (p : Params) (c : Byte) (s : State) : Byte × State :=
  match regNamed p c with
  | some r => (s.regs.get r, s)
  | none => (p.sentinel, s.record .invalidRegisterRead c)

/-- `x[c] <- v` (10_state.md R24): a write to an invalid code is discarded and recorded. -/
def writeReg (p : Params) (c v : Byte) (s : State) : State :=
  match regNamed p c with
  | some r => s.setReg r v
  | none => s.record .invalidRegisterWrite c

/-- What an address that is not listed reads as: the reset contents (10_state.md R38). -/
def Memory.unlisted : Byte := 0

/-- The byte at an address. -/
def Memory.read : Memory → Nat → Byte
  | [], _ => Memory.unlisted
  | (b, w) :: m, a => if a = b then w else Memory.read m a

/-- Puts a byte before the cells `m`, unless an unlisted address reads it already. -/
def Memory.cons (a : Nat) (v : Byte) (m : Memory) : Memory :=
  if v = Memory.unlisted then m else (a, v) :: m

/-- Stores a byte and keeps the canonical form. -/
def Memory.write : Memory → Nat → Byte → Memory
  | [], a, v => Memory.cons a v []
  | (b, w) :: m, a, v =>
    if a < b then Memory.cons a v ((b, w) :: m)
    else if a = b then Memory.cons a v m
    else (b, w) :: Memory.write m a v

/-- Every listed address is above `lo` and in the address space, the addresses rise, and no listed byte is what an unlisted
address reads as. -/
def Memory.wfAbove : Option Nat → Memory → Bool
  | _, [] => true
  | lo, (a, v) :: m =>
    (match lo with
      | none => true
      | some b => decide (b < a)) &&
    decide (a < 65536) && decide (v ≠ Memory.unlisted) && Memory.wfAbove (some a) m

/-- The canonical form of memory. -/
def Memory.wf (m : Memory) : Bool := Memory.wfAbove none m

/-- `MemRead(a, 1)` (20_memory.md R53): a read changes no state. -/
def memRead (a : Addr) (s : State) : Byte := Memory.read s.mem a.toNat

/-- Stores a byte at an address and does nothing else. -/
def State.setByte (s : State) (a : Addr) (v : Byte) : State := { s with mem := Memory.write s.mem a.toNat v }

/-- The abort, the one exception of the core (60_exceptions.md R202): `faulted` is set and the value is recorded. What was
written earlier stays, `phase` keeps its value, nothing is saved and control goes nowhere (R205). -/
def State.abort (s : State) (k : Abort) : State := { s with faulted := true, fault := some k }

/-- Leaving the faulted state, which only reset does (60_exceptions.md R206, 70_reset_and_hazards.md R220): total, from any
state. -/
def State.hostReset (_ : State) : State := State.reset

/-- The I/O-response of a core write (20_memory.md R58). -/
def ioResponse (p : Params) (a : Addr) (v : Byte) (s : State) : State :=
  let s := if a = p.splAddr then { s with spl := v } else s
  if a = p.sphAddr then { s with sph := v } else s

/-- `MemWrite(a, 1, v)` by the core (20_memory.md R54 to R58). -/
def memWrite (p : Params) (a : Addr) (v : Byte) (s : State) : Except State State :=
  if a < p.ramBase then
    match p.romWrite with
    | .discard => .ok s
    | .store => .ok (s.setByte a v)
    | .abort => .error (s.abort (.romWrite a))
  else if a < p.ioBase then .ok (s.setByte a v)
  else .ok (ioResponse p a v (s.setByte a v))

/-- Ends an execute phase: the counter takes its next value, unless the phase aborted (60_exceptions.md R202). -/
def endPhase (next : Phase) (r : Except State State) : Host.Outcome State Fault Refusal :=
  match r with
  | .ok s => .next { s with phase := next }
  | .error s => .next s

end Sys2Proof.Machine
end

