-- ==== Sys2Proof/Machine/Flags.lean ====
section
/-! DEFINITION. The flags: masks (10_state.md R26), the comparison bits (42_alu.md R150), the carry of a sum (R151, R152). -/

namespace Sys2Proof.Machine

/-- The mask of a flag bit. -/
def flagMask (n : Fin 8) : Byte := 1 <<< n.val

/-- `cmpbits(a, b)` (42_alu.md R150): an unsigned comparison. -/
def cmpbits (p : Params) (a b : Byte) : Byte :=
  if b < a then flagMask p.flagBits.greater
  else if a = b then flagMask p.flagBits.equal
  else flagMask p.flagBits.less

/-- CARRY as a number, 0 or 1: the carry-in of ADC (R152). -/
def carryIn (p : Params) (s : State) : Nat := if s.regs.f.getLsbD p.flagBits.carry.val then 1 else 0

/-- `F <- F | bits`: arithmetic never clears a flag (10_state.md R27). -/
def State.orF (s : State) (bits : Byte) : State := s.setReg .F (s.regs.f ||| bits)

/-- `if t > 255: F <- F | CARRY_MASK` (R151, R152). -/
def orCarry (p : Params) (t : Nat) (s : State) : State :=
  if t > 255 then s.orF (flagMask p.flagBits.carry) else s

end Sys2Proof.Machine
end

