-- ==== Sys2Proof/Machine/Operands.lean ====
section
/-! DEFINITION. The operand forms (00_scope.md R12, 30_encoding.md R82, R86, 40_cycle.md R120). -/

namespace Sys2Proof.Machine

/-- `OP1` or `OP2`: a register code when `I` is 0, an immediate byte when `I` is 1. -/
inductive Operand where
  | reg (c : Byte)
  | imm (i : Byte)
  deriving DecidableEq, Repr

/-- `x[b]` for an operand byte `b`. -/
def readOperandReg (p : Params) (b : Byte) (s : State) : Byte × State := readReg p (operandCode p b) s

/-- `x[b] <- v` for an operand byte `b`. -/
def writeOperandReg (p : Params) (b v : Byte) (s : State) : State := writeReg p (operandCode p b) v s

/-- The value of `OP1` or `OP2` (40_cycle.md R120); reading it may record an anomaly. -/
def readOperand (p : Params) (o : Operand) (s : State) : Byte × State :=
  match o with
  | .reg b => readOperandReg p b s
  | .imm i => (i, s)

/-- The two address bytes of LW and SW: register codes when `I` is 0, immediates when `I` is 1 (30_encoding.md R86). -/
inductive AddrOperand where
  | regs (rh rl : Byte)
  | imm (hi lo : Byte)
  deriving DecidableEq, Repr

/-- The address of LW and SW; the high byte's register is read first. -/
def readAddr (p : Params) (o : AddrOperand) (s : State) : Addr × State :=
  match o with
  | .regs rh rl =>
    let h := readOperandReg p rh s
    let l := readOperandReg p rl h.2
    (joinBytes h.1 l.1, l.2)
  | .imm hi lo => (joinBytes hi lo, s)

end Sys2Proof.Machine
end

