-- ==== Sys2Proof/Machine/Alu.lean ====
section
/-! DEFINITION. ADD, ADC, AND, NOR, CMP (42_alu.md R150 to R156). ADD and ADC take two execute phases: their meaning does
what the phase counter says, the arithmetic in phase 3 and the comparison flags in phase 4 (40_cycle.md R118, R119). -/

namespace Sys2Proof.Machine

/-- Holds the phase 3 operands for phase 4 under `P_ADD_CMP = pre_write` (42_alu.md R156). -/
def holdAddends (p : Params) (a b : Byte) (s : State) : State :=
  match p.addCmp with
  | .postWrite => s
  | .preWrite => { s with addA := a, addB := b }

/-- Phase 3 of ADD and ADC, carry-in `c`: read both operands, write the sum, then OR CARRY into F (R151, R152). -/
def addArith (p : Params) (c : Nat) (d : Byte) (o : Operand) (s : State) : State :=
  let a := readOperandReg p d s
  let b := readOperand p o a.2
  let t := a.1.toNat + b.1.toNat + c
  holdAddends p a.1 b.1 (orCarry p t (writeOperandReg p d (BitVec.ofNat 8 t) b.2))

/-- Phase 4 of ADD and ADC: OR the comparison bits into F (R156). -/
def addFlags (p : Params) (d : Byte) (o : Operand) (s : State) : State :=
  match p.addCmp with
  | .postWrite =>
    let a := readOperandReg p d s
    let b := readOperand p o a.2
    b.2.orF (cmpbits p a.1 b.1)
  | .preWrite => s.orF (cmpbits p s.addA s.addB)

/-- ADD (R151): phase 4 is the flag phase, phase 3 the arithmetic with no carry-in. -/
def addOp (p : Params) (d : Byte) (o : Operand) (s : State) : Host.Outcome State Fault Refusal :=
  if s.phase = .p4 then endPhase .p0 (.ok (addFlags p d o s))
  else endPhase .p4 (.ok (addArith p 0 d o s))

/-- ADC (R152): as ADD, with CARRY as the carry-in, read before any write of the phase. -/
def adcOp (p : Params) (d : Byte) (o : Operand) (s : State) : Host.Outcome State Fault Refusal :=
  if s.phase = .p4 then endPhase .p0 (.ok (addFlags p d o s))
  else endPhase .p4 (.ok (addArith p (carryIn p s) d o s))

/-- AND and NOR: `x[ARG1] <- g(x[ARG1], OP2)` (R153, R154). -/
def logicOp (p : Params) (g : Byte → Byte → Byte) (d : Byte) (o : Operand) (s : State) :
    Host.Outcome State Fault Refusal :=
  let a := readOperandReg p d s
  let b := readOperand p o a.2
  endPhase .p0 (.ok (writeOperandReg p d (g a.1 b.1) b.2))

/-- AND (R153). -/
def andOp (p : Params) (d : Byte) (o : Operand) (s : State) : Host.Outcome State Fault Refusal :=
  logicOp p (fun a b => a &&& b) d o s

/-- NOR (R154). -/
def norOp (p : Params) (d : Byte) (o : Operand) (s : State) : Host.Outcome State Fault Refusal :=
  logicOp p (fun a b => ~~~(a ||| b)) d o s

/-- CMP: `va <- x[ARG1]; vb <- OP2; F <- cmpbits(va, vb)` (R155). -/
def cmpOp (p : Params) (a : Byte) (o : Operand) (s : State) : Host.Outcome State Fault Refusal :=
  let va := readOperandReg p a s
  let vb := readOperand p o va.2
  endPhase .p0 (.ok (vb.2.setReg .F (cmpbits p va.1 vb.1)))

/-- ADD d s (R151). -/
def execAddRR (d r : Byte) (s : State) : Host.Outcome State Fault Refusal := addOp Config.params d (.reg r) s

/-- ADD d i (R151). -/
def execAddRI (d i : Byte) (s : State) : Host.Outcome State Fault Refusal := addOp Config.params d (.imm i) s

/-- ADC d s (R152). -/
def execAdcRR (d r : Byte) (s : State) : Host.Outcome State Fault Refusal := adcOp Config.params d (.reg r) s

/-- ADC d i (R152). -/
def execAdcRI (d i : Byte) (s : State) : Host.Outcome State Fault Refusal := adcOp Config.params d (.imm i) s

/-- AND d s (R153). -/
def execAndRR (d r : Byte) (s : State) : Host.Outcome State Fault Refusal := andOp Config.params d (.reg r) s

/-- AND d i (R153). -/
def execAndRI (d i : Byte) (s : State) : Host.Outcome State Fault Refusal := andOp Config.params d (.imm i) s

/-- NOR d s (R154). -/
def execNorRR (d r : Byte) (s : State) : Host.Outcome State Fault Refusal := norOp Config.params d (.reg r) s

/-- NOR d i (R154). -/
def execNorRI (d i : Byte) (s : State) : Host.Outcome State Fault Refusal := norOp Config.params d (.imm i) s

/-- CMP a s (R155). -/
def execCmpRR (a r : Byte) (s : State) : Host.Outcome State Fault Refusal := cmpOp Config.params a (.reg r) s

/-- CMP a i (R155). -/
def execCmpRI (a i : Byte) (s : State) : Host.Outcome State Fault Refusal := cmpOp Config.params a (.imm i) s

end Sys2Proof.Machine
end

