-- ==== Sys2Proof/Machine/Control.lean ====
section
/-! DEFINITION. JNZ (43_control.md R170), the only instruction that writes PC other than by the fetch increment (R171). -/

namespace Sys2Proof.Machine

/-- The jump target `{H, L}` (43_control.md R170, R172). -/
def jumpTarget (s : State) : Addr := joinBytes s.regs.h s.regs.l

/-- JNZ: `v <- OP1; if v != 0: PC <- {H, L}` (R170). -/
def jnzOp (p : Params) (o : Operand) (s : State) : Host.Outcome State Fault Refusal :=
  let v := readOperand p o s
  endPhase .p0 (.ok (if v.1 = 0 then v.2 else v.2.setPc (jumpTarget v.2)))

/-- JNZ r (R170). -/
def execJnzSR (r : Byte) (s : State) : Host.Outcome State Fault Refusal := jnzOp Config.params (.reg r) s

/-- JNZ i (R170). -/
def execJnzSI (i : Byte) (s : State) : Host.Outcome State Fault Refusal := jnzOp Config.params (.imm i) s

end Sys2Proof.Machine
end

