-- ==== Sys2Proof/Machine/DataMovement.lean ====
section
/-! DEFINITION. MOV, LDA, LW, SW, PUSH, POP (41_data_movement.md R130 to R135): what each does in its execute phase. The
shared operation takes the parameters; the meaning of each row of the opcode table is one line over it. -/

namespace Sys2Proof.Machine

/-- MOV: `x[ARG1] <- OP2` (R130). -/
def movOp (p : Params) (d : Byte) (o : Operand) (s : State) : Host.Outcome State Fault Refusal :=
  let v := readOperand p o s
  endPhase .p0 (.ok (writeOperandReg p d v.1 v.2))

/-- LDA: `H <- ARG1; L <- ARG2` (R131). -/
def ldaOp (hi lo : Byte) (s : State) : Host.Outcome State Fault Refusal :=
  endPhase .p0 (.ok ((s.setReg .H hi).setReg .L lo))

/-- LW: the address, the read, `x[RF] <- v` (R132). -/
def lwOp (p : Params) (r : Byte) (o : AddrOperand) (s : State) : Host.Outcome State Fault Refusal :=
  let a := readAddr p o s
  endPhase .p0 (.ok (writeReg p r (memRead a.1 a.2) a.2))

/-- SW: the address, `v <- x[RF]`, the write (R133). -/
def swOp (p : Params) (r : Byte) (o : AddrOperand) (s : State) : Host.Outcome State Fault Refusal :=
  let a := readAddr p o s
  let v := readReg p r a.2
  endPhase .p0 (memWrite p a.1 v.1 v.2)

/-- Where PUSH stores: `SP - 1` or `SP`, by `P_STACK` (R134). -/
def pushAddr (p : Params) (s : State) : Addr :=
  match p.stack with
  | .predecPush => s.sp - 1
  | .postdecPush => s.sp

/-- The stack write and the adjustment of SP, in the order of `P_STACK` (R134). -/
def pushByte (p : Params) (v : Byte) (s : State) : Except State State :=
  match p.stack with
  | .predecPush => memWrite p (pushAddr p s) v (s.setSp (s.sp - 1))
  | .postdecPush =>
    match memWrite p (pushAddr p s) v s with
    | .ok t => .ok (t.setSp (t.sp - 1))
    | .error t => .error t

/-- PUSH: `v <- OP1`, then the push (R134). -/
def pushOp (p : Params) (o : Operand) (s : State) : Host.Outcome State Fault Refusal :=
  let v := readOperand p o s
  endPhase .p0 (pushByte p v.1 v.2)

/-- Where POP reads: `SP` or `SP + 1`, by `P_STACK` (R135). -/
def popAddr (p : Params) (s : State) : Addr :=
  match p.stack with
  | .predecPush => s.sp
  | .postdecPush => s.sp + 1

/-- POP: the read, `SP + 1`, `x[ARG1] <- v` (R135). -/
def popOp (p : Params) (d : Byte) (s : State) : Host.Outcome State Fault Refusal :=
  endPhase .p0 (.ok (writeOperandReg p d (memRead (popAddr p s) s) (s.setSp (s.sp + 1))))

/-- MOV d s (R130). -/
def execMovRR (d r : Byte) (s : State) : Host.Outcome State Fault Refusal := movOp Config.params d (.reg r) s

/-- MOV d i (R130). -/
def execMovRI (d i : Byte) (s : State) : Host.Outcome State Fault Refusal := movOp Config.params d (.imm i) s

/-- LDA hi lo (R131). -/
def execLda (hi lo : Byte) (s : State) : Host.Outcome State Fault Refusal := ldaOp hi lo s

/-- LW r rh rl (R132). -/
def execLwMR (r rh rl : Byte) (s : State) : Host.Outcome State Fault Refusal := lwOp Config.params r (.regs rh rl) s

/-- LW r hi lo (R132). -/
def execLwMI (r hi lo : Byte) (s : State) : Host.Outcome State Fault Refusal := lwOp Config.params r (.imm hi lo) s

/-- SW r rh rl (R133). -/
def execSwMR (r rh rl : Byte) (s : State) : Host.Outcome State Fault Refusal := swOp Config.params r (.regs rh rl) s

/-- SW r hi lo (R133). -/
def execSwMI (r hi lo : Byte) (s : State) : Host.Outcome State Fault Refusal := swOp Config.params r (.imm hi lo) s

/-- PUSH r (R134). -/
def execPushSR (r : Byte) (s : State) : Host.Outcome State Fault Refusal := pushOp Config.params (.reg r) s

/-- PUSH i (R134). -/
def execPushSI (i : Byte) (s : State) : Host.Outcome State Fault Refusal := pushOp Config.params (.imm i) s

/-- POP d (R135). -/
def execPopD (d : Byte) (s : State) : Host.Outcome State Fault Refusal := popOp Config.params d s

end Sys2Proof.Machine
end

