-- ==== Sys2Proof/Machine/Dispatch.lean ====
section
/-! DEFINITION. exec: one arm per row of the opcode table. It performs the execute phase of an instruction; for ADD and ADC
the one the phase counter names. -/

namespace Sys2Proof.Machine

def exec (i : Instr) (s : State) : Host.Outcome State Fault Refusal :=
  match i with
  | .movRR d r => Sys2Proof.Machine.execMovRR d r s
  | .movRI d b => Sys2Proof.Machine.execMovRI d b s
  | .addRR d r => Sys2Proof.Machine.execAddRR d r s
  | .addRI d b => Sys2Proof.Machine.execAddRI d b s
  | .adcRR d r => Sys2Proof.Machine.execAdcRR d r s
  | .adcRI d b => Sys2Proof.Machine.execAdcRI d b s
  | .andRR d r => Sys2Proof.Machine.execAndRR d r s
  | .andRI d b => Sys2Proof.Machine.execAndRI d b s
  | .norRR d r => Sys2Proof.Machine.execNorRR d r s
  | .norRI d b => Sys2Proof.Machine.execNorRI d b s
  | .cmpRR a r => Sys2Proof.Machine.execCmpRR a r s
  | .cmpRI a b => Sys2Proof.Machine.execCmpRI a b s
  | .lwMR r rh rl => Sys2Proof.Machine.execLwMR r rh rl s
  | .lwMI r hi lo => Sys2Proof.Machine.execLwMI r hi lo s
  | .swMR r rh rl => Sys2Proof.Machine.execSwMR r rh rl s
  | .swMI r hi lo => Sys2Proof.Machine.execSwMI r hi lo s
  | .lda hi lo => Sys2Proof.Machine.execLda hi lo s
  | .pushSR r => Sys2Proof.Machine.execPushSR r s
  | .pushSI b => Sys2Proof.Machine.execPushSI b s
  | .popD d => Sys2Proof.Machine.execPopD d s
  | .jnzSR r => Sys2Proof.Machine.execJnzSR r s
  | .jnzSI b => Sys2Proof.Machine.execJnzSI b s

end Sys2Proof.Machine
end

