-- ==== Sys2Proof/Machine/Fetch.lean ====
section
/-! DEFINITION. The fetch phases (40_cycle.md R111 to R115) and how many phases an instruction takes (R116 to R121). -/

namespace Sys2Proof.Machine

/-- Phase 0, first part: the I/O event check (40_cycle.md R111, 20_memory.md R60). -/
def ioCheck (p : Params) (s : State) : State :=
  let v := memRead p.ioBase s
  if v = s.ioPrev then s else { s with ioPrev := v, ioEvents := s.ioEvents ++ [v] }

/-- `PC <- PC + 1` (10_state.md R29). -/
def State.advance (s : State) : State := s.setPc (s.pc + 1)

/-- Phase 0 (40_cycle.md R111 to R113): the I/O event check, the opcode fetch, the abort on an undefined opcode. -/
def fetchOpcode (p : Params) (s : State) : State :=
  let s := ioCheck p s
  let a := s.pc
  let b := memRead a s
  let t := { s with ir := b }.advance
  match decodeOpcode p b with
  | .ok _ => { t with phase := .p1 }
  | .error _ => t.abort (.undefinedOpcode a b)

/-- Phase 1 (R114). -/
def fetchArg1 (s : State) : State := { { s with arg1 := memRead s.pc s }.advance with phase := .p2 }

/-- Phase 2 of a 3-byte instruction (R115). -/
def fetchArg2 (s : State) : State := { { s with arg2 := memRead s.pc s }.advance with phase := .p3 }

/-- All the fetch phases of an instruction, up to its execute phase (R112, R114, R115). -/
def fetchInstr (p : Params) (s : State) : State :=
  let t := fetchArg1 (fetchOpcode p s)
  if needs2 p t.ir then fetchArg2 t else t

/-- The instruction in IR, ARG1 and ARG2. -/
def fetchedInstr (p : Params) (s : State) : Option Instr :=
  match decode p [s.ir, s.arg1, s.arg2] with
  | .ok (i, _) => some i
  | .error _ => none

/-- A primitive whose comparison flags take a phase of their own: ADD and ADC (R119). -/
def hasFlagPhase : Primitive → Bool
  | .add => true
  | .adc => true
  | .mov => false
  | .lw => false
  | .sw => false
  | .lda => false
  | .push => false
  | .pop => false
  | .jnz => false
  | .and => false
  | .nor => false
  | .cmp => false

/-- Whether a phase is an execute phase of the instruction: phase 2 of a 2-byte one, phase 3 of a 3-byte one, and phase 4
of ADD and ADC (40_cycle.md R116 to R119). -/
def executesIn (i : Instr) (ph : Phase) : Bool :=
  match ph with
  | .p2 => i.length == 2
  | .p3 => i.length == 3
  | .p4 => hasFlagPhase i.opcode.prim
  | .p0 => false
  | .p1 => false
  | .p5 => false
  | .p6 => false

/-- Steps from phase 0 back to phase 0 (40_cycle.md R121, 70_reset_and_hazards.md R234). -/
def instrSteps (i : Instr) : Nat := i.length + 1 + (if hasFlagPhase i.opcode.prim then 1 else 0)

end Sys2Proof.Machine
end

