-- ==== Sys2Proof/Machine/Cycle.lean ====
section
/-! DEFINITION. One step of the phase state machine (40_cycle.md R110 to R124), and the machine at any parameter values. -/

namespace Sys2Proof.Machine

/-- An execute phase (40_cycle.md R116 to R119): the meaning `ex` of the instruction in IR, ARG1 and ARG2. Where that is no
instruction of the phase, a state no run reaches, the machine stops (DESIGN CHOICE, log 9). -/
def executePhase (p : Params) (ex : Instr → State → Host.Outcome State Fault Refusal) (s : State) :
    Host.Outcome State Fault Refusal :=
  match fetchedInstr p s with
  | some i => if executesIn i s.phase then ex i s else .fault (.noInstruction s.phase s.ir)
  | none => .fault (.noInstruction s.phase s.ir)

/-- One step: the phase that `phase` names (R110). A faulted core does nothing (R123); phases 5 and 6 abort (R124). -/
def runPhase (p : Params) (ex : Instr → State → Host.Outcome State Fault Refusal) (s : State) :
    Host.Outcome State Fault Refusal :=
  if s.faulted then .next s
  else
    match s.phase with
    | .p0 => .next (fetchOpcode p s)
    | .p1 => .next (fetchArg1 s)
    | .p2 => if needs2 p s.ir then .next (fetchArg2 s) else executePhase p ex s
    | .p3 => executePhase p ex s
    | .p4 => executePhase p ex s
    | .p5 => .next (s.abort (.badPhase s.phase))
    | .p6 => .next (s.abort (.badPhase s.phase))

/-- The meaning of an instruction at any parameter values; at `Config.params` it is `exec`. -/
def execWith (p : Params) (i : Instr) (s : State) : Host.Outcome State Fault Refusal :=
  match i with
  | .movRR d r => movOp p d (.reg r) s
  | .movRI d b => movOp p d (.imm b) s
  | .addRR d r => addOp p d (.reg r) s
  | .addRI d b => addOp p d (.imm b) s
  | .adcRR d r => adcOp p d (.reg r) s
  | .adcRI d b => adcOp p d (.imm b) s
  | .andRR d r => andOp p d (.reg r) s
  | .andRI d b => andOp p d (.imm b) s
  | .norRR d r => norOp p d (.reg r) s
  | .norRI d b => norOp p d (.imm b) s
  | .cmpRR a r => cmpOp p a (.reg r) s
  | .cmpRI a b => cmpOp p a (.imm b) s
  | .lwMR r rh rl => lwOp p r (.regs rh rl) s
  | .lwMI r hi lo => lwOp p r (.imm hi lo) s
  | .swMR r rh rl => swOp p r (.regs rh rl) s
  | .swMI r hi lo => swOp p r (.imm hi lo) s
  | .lda hi lo => ldaOp hi lo s
  | .pushSR r => pushOp p (.reg r) s
  | .pushSI b => pushOp p (.imm b) s
  | .popD d => popOp p d s
  | .jnzSR r => jnzOp p (.reg r) s
  | .jnzSI b => jnzOp p (.imm b) s

/-- One step of the core at any parameter values (00_scope.md R7). -/
def stepWith (p : Params) (s : State) : Host.Outcome State Fault Refusal := runPhase p (execWith p) s

end Sys2Proof.Machine
end

