-- ==== Sys2Proof/Machine/HostPort.lean ====
section
/-! DEFINITION. What the host does between steps (20_memory.md R72, R73, 10_state.md R40, 60_exceptions.md R203, R213, D24, D34). Reset is
`State.hostReset` (Ops.lean). -/

namespace Sys2Proof.Machine

/-- Host read of a byte (20_memory.md R73). -/
def hostRead (a : Addr) (s : State) : Byte := memRead a s

/-- Host write of a byte (R73): no I/O-response, no ROM policy. The host has no move to a mirror address (U13). -/
def hostWrite (p : Params) (a : Addr) (v : Byte) (s : State) : Option State :=
  if a = p.splAddr ∨ a = p.sphAddr then none else some (s.setByte a v)

/-- Image load (R72): host writes to consecutive addresses. -/
def hostWriteAll (p : Params) (a : Addr) : List Byte → State → Option State
  | [], s => some s
  | v :: vs, s =>
    match hostWrite p a v s with
    | none => none
    | some t => hostWriteAll p (a + 1) vs t

/-- The load of a program image at `P_ORIGIN` (R72). -/
def loadImage (p : Params) (image : List Byte) (s : State) : Option State := hostWriteAll p p.origin image s

/-- What the host reads of the core between steps: every register, the invisible ones included (10_state.md R40,
60_exceptions.md R213, D34). -/
structure Readout where
  regs : RegFile
  pc : Addr
  sp : Addr
  ir : Byte
  arg1 : Byte
  arg2 : Byte
  phase : Phase
  ioPrev : Byte
  faulted : Bool
  deriving DecidableEq, Repr

/-- Host readout of the registers (10_state.md R40). -/
def hostReadout (s : State) : Readout where
  regs := s.regs
  pc := s.pc
  sp := s.sp
  ir := s.ir
  arg1 := s.arg1
  arg2 := s.arg2
  phase := s.phase
  ioPrev := s.ioPrev
  faulted := s.faulted

/-- Every way the host influences the core between steps: memory writes and reset, and no other (60_exceptions.md R203,
20_memory.md R73, D34; log 14). -/
inductive HostMove where
  | write (a : Addr) (v : Byte)
  | load (image : List Byte)
  | reset
  deriving DecidableEq, Repr

/-- The effect of a host move; none where the host has no such move (U13). -/
def hostMove (p : Params) (m : HostMove) (s : State) : Option State :=
  match m with
  | .write a v => hostWrite p a v s
  | .load image => loadImage p image s
  | .reset => some s.hostReset

/-- Stores bytes at consecutive addresses, as a load from outside the machine does. -/
def placeBytes (a : Addr) : List Byte → State → State
  | [], s => s
  | v :: vs, s => placeBytes (a + 1) vs (s.setByte a v)

/-- The instruction bytes stored at PC, and, where they are a defined instruction, its fetch phases done, so that the next
step is its execute phase (log 12). An aborted core is set going again; the phase the core was in is left. -/
def withInstrBytes (p : Params) (bs : List Byte) (s : State) : State :=
  let t := { placeBytes s.pc bs s with phase := .p0, faulted := false, fault := none }
  match decode p bs with
  | .ok _ => fetchInstr p t
  | .error _ => t

end Sys2Proof.Machine
end

