-- ==== Sys2Proof/Machine/Step.lean ====
section
/-! DEFINITION. The step of the machine: one phase (40_cycle.md R110). -/

namespace Sys2Proof.Machine

/-- One step call: one phase, at the default parameters. -/
def step (s : State) : Host.Outcome State Fault Refusal := runPhase Config.params exec s

/-- The state in which the next step executes the instruction whose bits are `w` (log 12): its bytes stored at PC and its
fetch phases done. -/
def State.withFetchWord (s : State) (nbits w : Nat) : State := withInstrBytes Config.params (wordBytes nbits w) s

end Sys2Proof.Machine
end

