-- ==== Sys2Proof/Machine/Pseudo.lean ====
section
/-! DEFINITION. The pseudo-instructions and their expansions (44_pseudo.md R180 to R196). The core never decodes one; their
byte lengths are part of the instruction-set contract (00_scope.md R3). -/

namespace Sys2Proof.Machine

/-- A jump target: two address bytes or a register pair (R181, R182). -/
inductive Target where
  | abs (hi lo : Byte)
  | pair (rh rl : Byte)
  deriving DecidableEq, Repr

/-- The relation of GT, LT, EQ (R190). -/
inductive Relation where
  | gt | lt | eq
  deriving DecidableEq, Repr

/-- The pseudo-instructions, register operands as operand bytes. `call` carries its own address, which its return address
is computed from (R191). -/
inductive Pseudo where
  | jmp (t : Target)
  | jc (t : Target)
  | jnc (t : Target)
  | not (d : Byte)
  | nand (d : Byte) (o : Operand)
  | xor (d : Byte) (o : Operand)
  | xnor (d : Byte) (o : Operand)
  | sub (d : Byte) (o : Operand)
  | compare (k : Relation) (d a : Byte) (o : Operand)
  | call (here : Addr) (t : Target)
  | ret
  | nop
  | inc (d : Byte)
  | dec (d : Byte)
  deriving DecidableEq, Repr

/-- The operand byte of a register: `00000rrr` (30_encoding.md R84). -/
def regByte (p : Params) (r : Reg) : Byte := (p.regCode.of r).setWidth 8

/-- MOV with the second operand in either form (R130). -/
def movInstr (d : Byte) : Operand → Instr
  | .reg r => .movRR d r
  | .imm i => .movRI d i

/-- AND with the second operand in either form (R153). -/
def andInstr (d : Byte) : Operand → Instr
  | .reg r => .andRR d r
  | .imm i => .andRI d i

/-- NOR with the second operand in either form (R154). -/
def norInstr (d : Byte) : Operand → Instr
  | .reg r => .norRR d r
  | .imm i => .norRI d i

/-- CMP with the second operand in either form (R155). -/
def cmpInstr (a : Byte) : Operand → Instr
  | .reg r => .cmpRR a r
  | .imm i => .cmpRI a i

/-- The primitives that put a target into H and L (R181, R182). -/
def loadTarget (p : Params) : Target → List Instr
  | .abs hi lo => [.lda hi lo]
  | .pair rh rl => [.movRR (regByte p .H) rh, .movRR (regByte p .L) rl]

/-- The mask of a relation's flag (R190). -/
def relationMask (p : Params) : Relation → Byte
  | .gt => flagMask p.flagBits.greater
  | .lt => flagMask p.flagBits.less
  | .eq => flagMask p.flagBits.equal

/-- The CARRY mask (10_state.md R26). -/
def carryMask (p : Params) : Byte := flagMask p.flagBits.carry

/-- JC: isolate CARRY, load the target, jump on F (R183). -/
def expandJc (p : Params) (t : Target) : List Instr :=
  [.andRI (regByte p .F) (carryMask p)] ++ loadTarget p t ++ [.jnzSR (regByte p .F)]

/-- XOR with `L` as the scratch register (R187). -/
def expandXor (p : Params) (d : Byte) (o : Operand) : List Instr :=
  [.movRR (regByte p .L) d, norInstr (regByte p .L) o, andInstr d o, .norRR d (regByte p .L)]

/-- Whether XOR and XNOR would lose an operand that stands in `L` (R187). -/
def usesScratch (p : Params) (d : Byte) (o : Operand) : Bool := d == regByte p .L || o == .reg (regByte p .L)

/-- The return address of a CALL (R191): the address just after its expansion. -/
def returnAddr (here : Addr) : Target → Addr
  | .abs _ _ => here + 9
  | .pair _ _ => here + 12

/-- The expansion; none where the assembler must reject the operands (R182, R187 to R189, U16; log 18). -/
def Pseudo.expand (p : Params) : Pseudo → Option (List Instr)
  | .jmp (.abs hi lo) => some (loadTarget p (.abs hi lo) ++ [.jnzSI 1])
  | .jmp (.pair rh rl) =>
    if rl = regByte p .H then none else some (loadTarget p (.pair rh rl) ++ [.jnzSI 1])
  | .jc t => some (expandJc p t)
  | .jnc t => some ([.norRR (regByte p .F) (regByte p .F)] ++ expandJc p t)
  | .not d => some [.norRR d d]
  | .nand d o => some [andInstr d o, .norRR d d]
  | .xor d o => if usesScratch p d o then none else some (expandXor p d o)
  | .xnor d o => if usesScratch p d o then none else some (expandXor p d o ++ [.norRR d d])
  | .sub d (.reg r) =>
    if d = r then none else some [.norRR r r, .movRI (regByte p .F) (carryMask p), .adcRR d r]
  | .sub d (.imm i) => some [.movRI (regByte p .F) (carryMask p), .adcRI d (~~~i)]
  | .compare k d a o =>
    some [cmpInstr a o, .andRI (regByte p .F) (relationMask p k), .movRR d (regByte p .F)]
  | .call here t =>
    some ([.pushSI (hiByte (returnAddr here t)), .pushSI (loByte (returnAddr here t))] ++ loadTarget p t ++ [.jnzSI 1])
  | .ret => some [.popD (regByte p .L), .popD (regByte p .H), .jnzSI 1]
  | .nop => some [.movRR (regByte p .A) (regByte p .A)]
  | .inc d => some [.addRI d 1]
  | .dec d => some [.movRI (regByte p .F) (carryMask p), .adcRI d 0xFE]

/-- The byte length that the layout pass counts (R196). -/
def Pseudo.bytes : Pseudo → Nat
  | .jmp (.abs _ _) => 5
  | .jmp (.pair _ _) => 8
  | .jc (.abs _ _) => 8
  | .jc (.pair _ _) => 11
  | .jnc (.abs _ _) => 11
  | .jnc (.pair _ _) => 14
  | .not _ => 3
  | .nand _ _ => 6
  | .xor _ _ => 12
  | .xnor _ _ => 15
  | .sub _ (.reg _) => 9
  | .sub _ (.imm _) => 6
  | .compare _ _ _ _ => 9
  | .call _ (.abs _ _) => 9
  | .call _ (.pair _ _) => 12
  | .ret => 6
  | .nop => 3
  | .inc _ => 3
  | .dec _ => 6

/-- The steps a pseudo-instruction takes (70_reset_and_hazards.md R234). -/
def Pseudo.steps : Pseudo → Nat
  | .jmp (.abs _ _) => 7
  | .jmp (.pair _ _) => 11
  | .jc (.abs _ _) => 11
  | .jc (.pair _ _) => 15
  | .jnc (.abs _ _) => 15
  | .jnc (.pair _ _) => 19
  | .not _ => 4
  | .nand _ _ => 8
  | .xor _ _ => 16
  | .xnor _ _ => 20
  | .sub _ (.reg _) => 13
  | .sub _ (.imm _) => 9
  | .compare _ _ _ _ => 12
  | .call _ (.abs _ _) => 13
  | .call _ (.pair _ _) => 17
  | .ret => 9
  | .nop => 4
  | .inc _ => 5
  | .dec _ => 9

end Sys2Proof.Machine
end

