-- ==== Sys2Proof/WellFormed.lean ====
section
/-! DEFINITION. When an instruction has an encoding, and when parameter values describe one machine. -/

namespace Sys2Proof

/-- An instruction has an encoding when its `RF` register code fits the three bits of the opcode field (30_encoding.md R81,
R83). Every operand byte is encodable as it is (R84, R85). -/
def Instr.wf : Instr → Bool
  | .lwMR r _ _ => r.toNat < 8
  | .lwMI r _ _ => r.toNat < 8
  | .swMR r _ _ => r.toNat < 8
  | .swMI r _ _ => r.toNat < 8
  | .movRR _ _ => true
  | .movRI _ _ => true
  | .addRR _ _ => true
  | .addRI _ _ => true
  | .adcRR _ _ => true
  | .adcRI _ _ => true
  | .andRR _ _ => true
  | .andRI _ _ => true
  | .norRR _ _ => true
  | .norRI _ _ => true
  | .cmpRR _ _ => true
  | .cmpRI _ _ => true
  | .lda _ _ => true
  | .pushSR _ => true
  | .pushSI _ => true
  | .popD _ => true
  | .jnzSR _ => true
  | .jnzSI _ => true

/-- The twelve identities differ (30_encoding.md R87). -/
def Params.wfOpcodes (p : Params) : Bool := (Primitive.all.map p.opcode.of).Nodup

/-- The seven register codes differ (10_state.md R22). -/
def Params.wfRegCodes (p : Params) : Bool := (Reg.all.map p.regCode.of).Nodup

/-- The four flags have four bits (10_state.md R26). -/
def Params.wfFlags (p : Params) : Bool :=
  [p.flagBits.carry, p.flagBits.greater, p.flagBits.equal, p.flagBits.less].Nodup

/-- The two mirror addresses are two fixed addresses of the I/O window, which lies above RAM (20_memory.md R52, R58). -/
def Params.wfMap (p : Params) : Bool :=
  p.ramBase < p.ioBase && p.ioBase ≤ p.splAddr && p.ioBase ≤ p.sphAddr && p.splAddr != p.sphAddr

/-- Parameter values that describe one machine. -/
def Params.wf (p : Params) : Bool := p.wfOpcodes && p.wfRegCodes && p.wfFlags && p.wfMap

end Sys2Proof
end

