-- ==== Sys2Proof/Safety.lean ====
section
/-! DEFINITION. The words claims use: what a safe run is, the invariant of every step, and what an instruction may change.
The values here are written from the spec's tables at the default parameters (00_scope.md R7), not through `Params`. -/

namespace Sys2Proof.Machine

/-- `k` steps of the core, with no host move between them (log 24). -/
def runFor : Nat → State → Host.Outcome State Fault Refusal
  | 0, s => .next s
  | k + 1, s =>
    match step s with
    | .next t => runFor k t
    | .fault r => .fault r
    | .refused r => .refused r

/-- No abort and no anomaly so far: the premise of a claim about a program (60_exceptions.md R201, D28). -/
def State.clean (s : State) : Prop := s.faulted = false ∧ s.anomalies = []

/-- A state at an end address named with the program (43_control.md R174). -/
abbrev State.atEnd (s : State) (e : Addr) : Prop := s.phase = .p0 ∧ s.pc = e

/-- The end of a run from `s`, if it comes within `n` steps: the FIRST state with `phase = 0` and `PC = e` (43_control.md
R174, D36). A later pass through `e` is not the end. DESIGN CHOICE, log 24: the run is step calls alone, with no host move
between them, where R174 does not say whether host moves belong to the run. -/
def endOfRun (e : Addr) : Nat → State → Option State
  | 0, s => if s.atEnd e then some s else none
  | n + 1, s =>
    if s.atEnd e then some s
    else
      match step s with
      | .next t => endOfRun e n t
      | .fault _ => none
      | .refused _ => none

/-- The number the phase counter holds (10_state.md R33). -/
def Phase.number : Phase → Nat
  | .p0 => 0
  | .p1 => 1
  | .p2 => 2
  | .p3 => 3
  | .p4 => 4
  | .p5 => 5
  | .p6 => 6

/-- What IR must hold in each phase of a run: nothing in phase 0, a defined opcode in phases 1 and 2, a 3-byte one in phase
3, ADD or ADC in phase 4; phases 5 and 6 are never reached (40_cycle.md R112, R115, R118, R124). -/
def phaseFits (ph : Phase) (o : Except DecodeError Opcode) : Bool :=
  match ph, o with
  | .p0, _ => true
  | .p1, .ok _ => true
  | .p2, .ok _ => true
  | .p3, .ok o => o.prim.length == 3
  | .p4, .ok o => hasFlagPhase o.prim
  | .p5, _ => false
  | .p6, _ => false
  | _, .error _ => false

/-- What every step keeps: memory in its canonical form, a fault recorded exactly when the core is faulted, and a phase
that fits IR. -/
def State.Inv (s : State) : Prop :=
  s.mem.wf = true ∧ s.faulted = s.fault.isSome ∧ phaseFits s.phase (decodeOpcode Config.params s.ir) = true

/-- The register a code names (the table of 10_state.md R22). -/
def namedReg (c : Byte) : Option Reg :=
  if c = 0 then some .A
  else if c = 1 then some .B
  else if c = 2 then some .C
  else if c = 3 then some .D
  else if c = 4 then some .L
  else if c = 5 then some .H
  else if c = 6 then some .F
  else none

/-- What reading a register code yields: the register, or the sentinel 0xFF (10_state.md R23). -/
def regVal (s : State) (c : Byte) : Byte :=
  match namedReg c with
  | some r => s.regs.get r
  | none => 0xFF

/-- The anomaly that reading a register code records, if any (60_exceptions.md R201). -/
def readNote (s : State) (c : Byte) : List Anomaly :=
  if namedReg c = none then [⟨.invalidRegisterRead, c, s.pc, s.phase⟩] else []

/-- The anomaly that writing to a register code records, if any (60_exceptions.md R201). -/
def writeNote (s : State) (c : Byte) : List Anomaly :=
  if namedReg c = none then [⟨.invalidRegisterWrite, c, s.pc, s.phase⟩] else []

/-- The value of an operand (40_cycle.md R120). -/
def operandVal (s : State) : Operand → Byte
  | .reg c => regVal s c
  | .imm i => i

/-- The anomaly that reading an operand records, if any. -/
def operandNote (s : State) : Operand → List Anomaly
  | .reg c => readNote s c
  | .imm _ => []

/-- `cmpbits(a, b)` with the default masks (42_alu.md R150). -/
def comparison (a b : Byte) : Byte := if b.toNat < a.toNat then 0x02 else if a = b then 0x04 else 0x08

/-- The CARRY bit that a sum ORs into F (42_alu.md R151). -/
def carryOf (t : Nat) : Byte := if 255 < t then 0x01 else 0x00

/-- CARRY of F, as a number (10_state.md R26). -/
def carryBit (s : State) : Nat := if s.regs.f.getLsbD 0 then 1 else 0

/-- SP after a core write of `v` to `a` (20_memory.md R58). -/
def mirrored (a : Addr) (v : Byte) (sp : Addr) : Addr :=
  if a = 0xFFFE then joinBytes (hiByte sp) v
  else if a = 0xFFFF then joinBytes v (loByte sp)
  else sp

/-- Every byte of memory reads as before. -/
def SameMemory (s t : State) : Prop := ∀ a : Addr, memRead a t = memRead a s

/-- Every byte of memory but the one at `a` reads as before. -/
def SameMemoryBut (a : Addr) (s t : State) : Prop := ∀ b : Addr, b ≠ a → memRead b t = memRead b s

/-- Every register that an instruction can name is as before. -/
def SameRegs (s t : State) : Prop := ∀ r : Reg, t.regs.get r = s.regs.get r

/-- The register that the code `c` names holds `v`, if `c` names one; every other register is as before. -/
def RegWritten (c v : Byte) (s t : State) : Prop :=
  ∀ r : Reg, t.regs.get r = if namedReg c = some r then v else s.regs.get r

/-- F holds `v`; every other register is as before. -/
def FlagsWritten (v : Byte) (s t : State) : Prop :=
  ∀ r : Reg, t.regs.get r = if r = .F then v else s.regs.get r

/-- The state no instruction's execute phase touches at the default parameters: IR, ARG1, ARG2, io_prev, the I/O event
record and the held operands. -/
def SameHidden (s t : State) : Prop :=
  t.ir = s.ir ∧ t.arg1 = s.arg1 ∧ t.arg2 = s.arg2 ∧ t.ioPrev = s.ioPrev ∧ t.ioEvents = s.ioEvents ∧
    t.addA = s.addA ∧ t.addB = s.addB

/-- No abort happened. -/
def SameStop (s t : State) : Prop := t.faulted = s.faulted ∧ t.fault = s.fault

/-- Only registers, the anomaly record and the phase may differ. -/
def RegistersOnly (s t : State) : Prop :=
  SameMemory s t ∧ t.pc = s.pc ∧ t.sp = s.sp ∧ SameHidden s t ∧ SameStop s t

/-- Phase 3 of ADD (carry-in 0) or ADC (42_alu.md R151, R152): the sum goes to the destination, then CARRY is ORed into F;
both operands are read before the sum is written. -/
def SumWritten (c : Nat) (d : Byte) (o : Operand) (s t : State) : Prop :=
  let n := (regVal s d).toNat + (operandVal s o).toNat + c
  (∀ r : Reg, r ≠ .F → t.regs.get r = if namedReg d = some r then BitVec.ofNat 8 n else s.regs.get r) ∧
    t.regs.f = (if namedReg d = some .F then BitVec.ofNat 8 n else s.regs.f) ||| carryOf n ∧
    t.anomalies = s.anomalies ++ readNote s d ++ operandNote s o ++ writeNote s d ∧
    t.phase = .p4 ∧ RegistersOnly s t

/-- Phase 4 of ADD and ADC (42_alu.md R156): the comparison of the operands as they read now is ORed into F. -/
def ComparisonOred (d : Byte) (o : Operand) (s t : State) : Prop :=
  FlagsWritten (s.regs.f ||| comparison (regVal s d) (operandVal s o)) s t ∧
    t.anomalies = s.anomalies ++ readNote s d ++ operandNote s o ∧ t.phase = .p0 ∧ RegistersOnly s t

/-- The second operand as phase 4 reads it again (42_alu.md R156, R157), after phase 3 wrote `v` to the register `q` and
`f` to F. -/
def reread (s : State) (q : Reg) (v f : Byte) : Operand → Byte
  | .imm i => i
  | .reg c => if namedReg c = some q then v else if namedReg c = some .F then f else regVal s c

/-- What ADD (carry-in 0) and ADC leave after both phases, for a destination `q` other than F (42_alu.md R157). -/
def SumLaw (c : Nat) (q : Reg) (o : Operand) (s u : State) : Prop :=
  let n := (s.regs.get q).toNat + (operandVal s o).toNat + c
  let f := s.regs.f ||| carryOf n
  u.regs.get q = BitVec.ofNat 8 n ∧
    u.regs.f.getLsbD 0 = (s.regs.f.getLsbD 0 || decide (255 < n)) ∧
    u.regs.f = f ||| comparison (BitVec.ofNat 8 n) (reread s q (BitVec.ofNat 8 n) f o) ∧
    ∀ r : Reg, r ≠ q → r ≠ .F → u.regs.get r = s.regs.get r

/-- The state an abort leaves, but for SP and the anomaly record (60_exceptions.md R202). -/
def AbortedWith (k : Abort) (s t : State) : Prop :=
  t.faulted = true ∧ t.fault = some k ∧ SameMemory s t ∧ SameRegs s t ∧ t.pc = s.pc ∧ SameHidden s t ∧
    t.phase = s.phase

/-- A store of `v` at `a`, the mirror into SP with it (20_memory.md R55, R57, R58): SP was `sp` before the write. -/
def StoredAt (a : Addr) (v : Byte) (sp : Addr) (s t : State) : Prop :=
  memRead a t = v ∧ SameMemoryBut a s t ∧ t.sp = mirrored a v sp ∧ SameRegs s t ∧ t.pc = s.pc ∧ SameHidden s t ∧
    SameStop s t

/-- The step at `s` is an execute phase of `i`. -/
def Executes (s : State) (i : Instr) : Prop :=
  s.faulted = false ∧ fetchedInstr Config.params s = some i ∧ executesIn i s.phase = true

/-- The register code that an instruction writes, if it has a register destination (10_state.md R27). -/
def destCode : Instr → Option Byte
  | .movRR d _ => some d
  | .movRI d _ => some d
  | .addRR d _ => some d
  | .addRI d _ => some d
  | .adcRR d _ => some d
  | .adcRI d _ => some d
  | .andRR d _ => some d
  | .andRI d _ => some d
  | .norRR d _ => some d
  | .norRI d _ => some d
  | .lwMR r _ _ => some r
  | .lwMI r _ _ => some r
  | .popD d => some d
  | .cmpRR _ _ => none
  | .cmpRI _ _ => none
  | .swMR _ _ _ => none
  | .swMI _ _ _ => none
  | .lda _ _ => none
  | .pushSR _ => none
  | .pushSI _ => none
  | .jnzSR _ => none
  | .jnzSI _ => none

/-- The address that an instruction stores to, if it stores: what its meaning computes at the state before its execute phase
(41_data_movement.md R133, R134). -/
def storeAddr (i : Instr) (s : State) : Option Addr :=
  match i with
  | .swMR _ rh rl => some (readAddr Config.params (.regs rh rl) s).1
  | .swMI _ hi lo => some (readAddr Config.params (.imm hi lo) s).1
  | .pushSR _ => some (pushAddr Config.params s)
  | .pushSI _ => some (pushAddr Config.params s)
  | .movRR _ _ => none
  | .movRI _ _ => none
  | .addRR _ _ => none
  | .addRI _ _ => none
  | .adcRR _ _ => none
  | .adcRI _ _ => none
  | .andRR _ _ => none
  | .andRI _ _ => none
  | .norRR _ _ => none
  | .norRI _ _ => none
  | .cmpRR _ _ => none
  | .cmpRI _ _ => none
  | .lwMR _ _ _ => none
  | .lwMI _ _ _ => none
  | .lda _ _ => none
  | .popD _ => none
  | .jnzSR _ => none
  | .jnzSI _ => none

/-- The bytes of an expansion; none where the assembler rejects the operands (44_pseudo.md R180). -/
def Pseudo.code (q : Pseudo) : Option (List Byte) := (q.expand Config.params).map (List.flatMap (encode Config.params))

/-- The steps of an instruction, from the table of 40_cycle.md R121. -/
def stepCount : Primitive → Nat
  | .push => 3
  | .pop => 3
  | .jnz => 3
  | .mov => 4
  | .lw => 4
  | .sw => 4
  | .lda => 4
  | .and => 4
  | .nor => 4
  | .cmp => 4
  | .add => 5
  | .adc => 5

end Sys2Proof.Machine
end

