-- ==== Sys2Proof/Certificates/Slice0/Obligations.lean ====
section
/-! DEFINITION. The statements for the provers. The parameters are the spec's defaults (logs 1 to 7) unless a statement
takes them as `p`. -/

open Sys2Proof Sys2Proof.Machine

/-! Encoding -/

/-- Words written out from the rows of 30_encoding.md R88 and R89 decode to the instruction they stand for. The opcode
numbers are the spec's decision D8 (log 3). -/
def Obligations.DecodeReadsSpecWords : Prop :=
  decode Config.params [0x01, 0x01, 0x02] = .ok (.movRR 1 2, []) ∧
  decode Config.params [0x84, 0x80, 0x00] = .ok (.lda 0x80 0x00, []) ∧
  decode Config.params [0x82, 0x80, 0x10] = .ok (.lwMI 0 0x80 0x10, []) ∧
  decode Config.params [0x52, 0x05, 0x04] = .ok (.lwMR 5 5 4, []) ∧
  decode Config.params [0xF3, 0x90, 0x00] = .ok (.swMI 7 0x90 0x00, []) ∧
  decode Config.params [0x85, 0x42] = .ok (.pushSI 0x42, []) ∧
  decode Config.params [0x06, 0x01] = .ok (.popD 1, []) ∧
  decode Config.params [0x87, 0x01] = .ok (.jnzSI 1, []) ∧
  decode Config.params [0x88, 0x00, 0x01] = .ok (.addRI 0 1, []) ∧
  decode Config.params [0x0B, 0x01, 0x01] = .ok (.norRR 1 1, []) ∧
  decode Config.params [0x8C, 0x01, 0x20] = .ok (.cmpRI 1 0x20, [])

/-- The undefined opcode bytes are those 30_encoding.md R91 lists, and each is rejected by its own byte. The map is the
spec's decisions D6 to D11 (log 3). -/
def Obligations.UndefinedOpcodesAreTheListedOnes : Prop :=
  ∀ b : Byte,
    decodeOpcode Config.params b = .error (.undefinedOpcode b) ↔
      (b &&& 0x0F = 0x00 ∨ b &&& 0x0F = 0x0D ∨ b &&& 0x0F = 0x0E ∨ b &&& 0x0F = 0x0F) ∨
        (b &&& 0x0F ≠ 0x02 ∧ b &&& 0x0F ≠ 0x03 ∧ b &&& 0x70 ≠ 0) ∨ b = 0x04 ∨ b = 0x86

/-- For any parameter values whose twelve identities differ, the decoder reads the bytes of every well-formed instruction
as that instruction and leaves the bytes after it. -/
def Obligations.DecodeOfEncodeIsTheInstruction : Prop :=
  ∀ (p : Params) (i : Instr) (rest : List Byte),
    p.wfOpcodes = true → i.wf = true → decode p (encode p i ++ rest) = .ok (i, rest)

/-- Whatever bytes the decoder accepts are the encoding of the instruction it reads, which is well-formed: each word has
one meaning. -/
def Obligations.EncodeOfDecodeIsTheBytes : Prop :=
  ∀ (p : Params) (bytes : List Byte) (i : Instr) (rest : List Byte),
    decode p bytes = .ok (i, rest) → i.wf = true ∧ encode p i ++ rest = bytes

/-- R90: for every one of the 256 bytes, `needs2` is true exactly when the byte decodes to an opcode of length 3; those are the
nine primitives listed, it is false for PUSH, POP and JNZ, and the opcode byte alone tells the length of the instruction. -/
def Obligations.NeedsSecondOperandByteExactlyForLengthThree : Prop :=
  ∀ b : Byte,
    (needs2 Config.params b = true ↔ ∃ o, decodeOpcode Config.params b = .ok o ∧ o.prim.length = 3) ∧
    ∀ o : Opcode, decodeOpcode Config.params b = .ok o →
      (needs2 Config.params b = true ↔ o.prim ∈ [Primitive.mov, .lw, .sw, .lda, .add, .adc, .and, .nor, .cmp]) ∧
      (needs2 Config.params b = false ↔ o.prim ∈ [Primitive.push, .pop, .jnz]) ∧
      ∀ (arg1 arg2 : Byte) (i : Instr) (rest : List Byte),
        decode Config.params [b, arg1, arg2] = .ok (i, rest) → i.length = o.prim.length

/-! The phase state machine -/

/-- From phase 0, with the bytes at PC an instruction `i`, as many steps as `i` has bytes fetch it, and the next step is
`exec i`; ADD and ADC have one more step, which is `exec i` again. The fetch writes IR, ARG1, ARG2 (3-byte instructions
only), PC, the phase and the I/O event check, and nothing else (40_cycle.md; a step is one phase, log 12; the event record is
log 10). -/
def Obligations.StepRunsTheDecodedInstruction : Prop :=
  ∀ (s : State) (i : Instr) (rest : List Byte),
    s.faulted = false → s.phase = .p0 →
    decode Config.params [memRead s.pc s, memRead (s.pc + 1) s, memRead (s.pc + 2) s] = .ok (i, rest) →
    ∃ f : State,
      runFor i.length s = .next f ∧ step f = exec i f ∧
      (hasFlagPhase i.opcode.prim = true → ∀ t, exec i f = .next t → step t = exec i t) ∧
      f.ir = memRead s.pc s ∧ f.arg1 = memRead (s.pc + 1) s ∧
      f.arg2 = (if i.length = 3 then memRead (s.pc + 2) s else s.arg2) ∧
      f.pc = s.pc + BitVec.ofNat 16 i.length ∧ f.phase = (if i.length = 3 then .p3 else .p2) ∧
      f.ioPrev = memRead 0xFF00 s ∧
      f.ioEvents = s.ioEvents ++ (if memRead 0xFF00 s = s.ioPrev then [] else [memRead 0xFF00 s]) ∧
      SameMemory s f ∧ SameRegs s f ∧ f.sp = s.sp ∧ f.anomalies = s.anomalies ∧ SameStop s f ∧
      f.addA = s.addA ∧ f.addB = s.addB

/-- The phase-cycle property: an instruction started in phase 0 takes exactly 3, 4 or 5 steps, the counter counting up from 0.
The last step leaves phase 0, unless the instruction is a SW or PUSH whose store address, as its meaning computes it at the
fetched state `f`, is in ROM: then and only then the last step aborts with that address in the phase of `f` (40_cycle.md R121,
D15, log 6). -/
def Obligations.InstructionTakesItsStepCount : Prop :=
  ∀ (s : State) (i : Instr) (rest : List Byte),
    s.faulted = false → s.phase = .p0 →
    decode Config.params [memRead s.pc s, memRead (s.pc + 1) s, memRead (s.pc + 2) s] = .ok (i, rest) →
    (∀ k, k < stepCount i.opcode.prim → ∃ t, runFor k s = .next t ∧ t.phase.number = k ∧ t.faulted = false) ∧
      ∃ f u, runFor i.length s = .next f ∧ runFor (stepCount i.opcode.prim) s = .next u ∧
        ((∀ a, storeAddr i f = some a → 0x8000 ≤ a.toNat) → u.phase = .p0 ∧ u.faulted = false ∧ u.fault = s.fault) ∧
        (∀ a, storeAddr i f = some a → a.toNat < 0x8000 →
          u.phase = f.phase ∧ u.faulted = true ∧ u.fault = some (.romWrite a))

/-- R112: phase 0 loads IR from PC and advances PC; on a defined opcode it goes to phase 1, with the need of a second operand
byte known from IR, and on an undefined one it aborts with the opcode's address and byte. Nothing else changes but the I/O
event check, which is phase 0's first part. -/
def Obligations.PhaseZeroFetchesAndDecodesTheOpcode : Prop :=
  ∀ s : State, s.faulted = false → s.phase = .p0 →
    ∃ t, step s = .next t ∧ t.ir = memRead s.pc s ∧ t.pc = s.pc + 1 ∧
      (∀ o, decodeOpcode Config.params (memRead s.pc s) = .ok o →
        t.phase = .p1 ∧ needs2 Config.params t.ir = (o.prim.length == 3) ∧ SameStop s t) ∧
      (∀ e, decodeOpcode Config.params (memRead s.pc s) = .error e →
        t.phase = .p0 ∧ t.faulted = true ∧ t.fault = some (.undefinedOpcode s.pc (memRead s.pc s))) ∧
      { t with
        ir := s.ir, pch := s.pch, pcl := s.pcl, phase := s.phase, ioPrev := s.ioPrev, ioEvents := s.ioEvents,
        faulted := s.faulted, fault := s.fault } = s

/-- R114: phase 1 loads ARG1 from PC, advances PC and goes to phase 2. -/
def Obligations.PhaseOneFetchesFirstOperandByte : Prop :=
  ∀ s : State, s.faulted = false → s.phase = .p1 →
    ∃ t, step s = .next t ∧ t.arg1 = memRead s.pc s ∧ t.pc = s.pc + 1 ∧ t.phase = .p2 ∧
      { t with arg1 := s.arg1, pch := s.pch, pcl := s.pcl, phase := s.phase } = s

/-- R115: phase 2 of a 3-byte instruction loads ARG2 from PC, advances PC and goes to phase 3. -/
def Obligations.PhaseTwoFetchesSecondOperandByte : Prop :=
  ∀ s : State, s.faulted = false → s.phase = .p2 → needs2 Config.params s.ir = true →
    ∃ t, step s = .next t ∧ t.arg2 = memRead s.pc s ∧ t.pc = s.pc + 1 ∧ t.phase = .p3 ∧
      { t with arg2 := s.arg2, pch := s.pch, pcl := s.pcl, phase := s.phase } = s

/-- Phase 0 on an undefined opcode aborts after IR and PC are written, in phase 0, with the opcode's address and byte; the
I/O event check came before it (40_cycle.md R111, R113; decisions D22, D23; log 8). -/
def Obligations.UndefinedOpcodeAbortsInPhaseZero : Prop :=
  ∀ s : State, s.faulted = false → s.phase = .p0 →
    decodeOpcode Config.params (memRead s.pc s) = .error (.undefinedOpcode (memRead s.pc s)) →
    ∃ t, step s = .next t ∧ t.faulted = true ∧ t.fault = some (.undefinedOpcode s.pc (memRead s.pc s)) ∧
      t.ir = memRead s.pc s ∧ t.pc = s.pc + 1 ∧ t.phase = .p0 ∧ t.ioPrev = memRead 0xFF00 s ∧
      t.ioEvents = s.ioEvents ++ (if memRead 0xFF00 s = s.ioPrev then [] else [memRead 0xFF00 s]) ∧
      SameMemory s t ∧ SameRegs s t ∧ t.sp = s.sp ∧ t.arg1 = s.arg1 ∧ t.arg2 = s.arg2 ∧
      t.anomalies = s.anomalies ∧ t.addA = s.addA ∧ t.addB = s.addB

/-- A faulted core does nothing, however many steps are called (40_cycle.md R123, decision D33). -/
def Obligations.FaultedCoreDoesNothing : Prop :=
  ∀ (s : State) (k : Nat), s.faulted = true → runFor k s = .next s

/-- A step at phase 5 or 6 aborts and records the phase (40_cycle.md R124, decision D31; log 15). -/
def Obligations.PhasesFiveAndSixAbort : Prop :=
  ∀ s : State, s.faulted = false → s.phase = .p5 ∨ s.phase = .p6 →
    step s = .next { s with faulted := true, fault := some (.badPhase s.phase) }

/-- Phase 0 loads IR with the opcode byte, and IR keeps its value until the next phase 0 (10_state.md R31). -/
def Obligations.InstructionRegisterChangesOnlyInPhaseZero : Prop :=
  ∀ s t : State, step s = .next t →
    (s.faulted = false → s.phase = .p0 → t.ir = memRead s.pc s) ∧
    (s.faulted = true ∨ s.phase ≠ .p0 → t.ir = s.ir)

/-- An I/O event is signalled exactly in a phase 0 that finds the byte at 0xFF00 changed since the phase 0 before, and
carries that byte; the latch follows (40_cycle.md R111, decision D23; log 10). -/
def Obligations.IoEventExactlyOnChangeInPhaseZero : Prop :=
  ∀ s t : State, step s = .next t →
    (s.faulted = false → s.phase = .p0 →
      t.ioPrev = memRead 0xFF00 s ∧
      t.ioEvents = s.ioEvents ++ (if memRead 0xFF00 s = s.ioPrev then [] else [memRead 0xFF00 s])) ∧
    (s.faulted = true ∨ s.phase ≠ .p0 → t.ioPrev = s.ioPrev ∧ t.ioEvents = s.ioEvents)

/-! Reset and the invariant -/

/-- Reset leaves every register, the phase counter and every byte of memory zero and the core not faulted, from whatever
state (70_reset_and_hazards.md R220). That the records are empty is decision D28 and, for the I/O events and the fault's
value, the model's choice (logs 8, 10); the held operands are the model's (log 7). -/
def Obligations.ResetLeavesEverythingZero : Prop :=
  ∀ s : State,
    (∀ r : Reg, s.hostReset.regs.get r = 0) ∧ s.hostReset.pc = 0 ∧ s.hostReset.sp = 0 ∧ s.hostReset.ir = 0 ∧
    s.hostReset.arg1 = 0 ∧ s.hostReset.arg2 = 0 ∧ s.hostReset.phase = .p0 ∧ s.hostReset.ioPrev = 0 ∧
    (∀ a : Addr, memRead a s.hostReset = 0) ∧ s.hostReset.faulted = false ∧ s.hostReset.fault = none ∧
    s.hostReset.anomalies = [] ∧ s.hostReset.ioEvents = [] ∧ s.hostReset.addA = 0 ∧ s.hostReset.addB = 0 ∧
    s.hostReset = State.reset

/-- The state after reset meets the invariant. -/
def Obligations.ResetMeetsTheInvariant : Prop := State.reset.Inv

/-- Every step keeps the invariant: canonical memory (log 13), a recorded fault exactly when faulted (log 8), and a phase that
fits IR, so that phases 5 and 6 are never entered and phase 4 only with ADD or ADC (40_cycle.md R119, R124). -/
def Obligations.StepKeepsTheInvariant : Prop := ∀ s t : State, s.Inv → step s = .next t → t.Inv

/-- A state that meets the invariant always steps: the core neither faults nor refuses in the model's sense (log 9). -/
def Obligations.InvariantStatesAlwaysStep : Prop := ∀ s : State, s.Inv → ∃ t, step s = .next t

/-! Rules over every step -/

/-- JNZ is the only instruction that writes PC other than by the fetch increment: PC moves by one in a fetch phase, or a
JNZ with a nonzero operand sets it to the pointer registers (43_control.md R170, R171). -/
def Obligations.OnlyFetchAndTakenJnzMovePc : Prop :=
  ∀ s t : State, step s = .next t → t.pc ≠ s.pc →
    (t.pc = s.pc + 1 ∧ (s.phase = .p0 ∨ s.phase = .p1 ∨ s.phase = .p2 ∧ needs2 Config.params s.ir = true)) ∨
    (t.pc = joinBytes s.regs.h s.regs.l ∧
      ∃ b, Executes s (.jnzSR b) ∧ regVal s b ≠ 0 ∨ Executes s (.jnzSI b) ∧ b ≠ 0)

/-- SP changes only by a PUSH, a POP or a SW to one of the two mirror addresses (10_state.md R30, decisions D12, D13). -/
def Obligations.OnlyStackAndMirrorMoveSp : Prop :=
  ∀ s t : State, step s = .next t → t.sp ≠ s.sp →
    (∃ b, Executes s (.popD b) ∧ t.sp = s.sp + 1) ∨
    (∃ b, Executes s (.pushSR b) ∧ t.sp = mirrored (s.sp - 1) (regVal s b) (s.sp - 1)) ∨
    (∃ b, Executes s (.pushSI b) ∧ t.sp = mirrored (s.sp - 1) b (s.sp - 1)) ∨
    (∃ r h l, Executes s (.swMR r h l) ∧
      ((readAddr Config.params (.regs h l) s).1 = 0xFFFE ∧ t.sp = joinBytes s.sph (regVal s r) ∨
        (readAddr Config.params (.regs h l) s).1 = 0xFFFF ∧ t.sp = joinBytes (regVal s r) s.spl)) ∨
    (∃ r h l, Executes s (.swMI r h l) ∧
      (joinBytes h l = 0xFFFE ∧ t.sp = joinBytes s.sph (regVal s r) ∨
        joinBytes h l = 0xFFFF ∧ t.sp = joinBytes (regVal s r) s.spl))

/-- F loses a bit only by CMP or an instruction whose destination is F, and changes at all only by those and by ADD and ADC
(10_state.md R27, 42_alu.md R158). -/
def Obligations.FlagsAreLostOnlyByCmpOrADestinationF : Prop :=
  ∀ s t : State, step s = .next t →
    (∀ k : Nat, s.regs.f.getLsbD k = true → t.regs.f.getLsbD k = false →
      ∃ i, Executes s i ∧ (i.opcode.prim = .cmp ∨ ∃ c, destCode i = some c ∧ namedReg c = some .F)) ∧
    (t.regs.f ≠ s.regs.f →
      ∃ i, Executes s i ∧ (i.opcode.prim = .cmp ∨ i.opcode.prim = .add ∨ i.opcode.prim = .adc ∨
        ∃ c, destCode i = some c ∧ namedReg c = some .F))

/-- A register other than F changes only in an execute phase of an instruction that has it as destination, or of LDA for H
and L (10_state.md R21, R25). -/
def Obligations.RegistersChangeOnlyAsDestinations : Prop :=
  ∀ (s t : State) (r : Reg), step s = .next t → r ≠ .F → t.regs.get r ≠ s.regs.get r →
    ∃ i, Executes s i ∧
      ((∃ c, destCode i = some c ∧ namedReg c = some r) ∨ i.opcode.prim = .lda ∧ (r = .H ∨ r = .L))

/-- A step changes a byte of memory only at the address that the SW or PUSH it executes stores to (41_data_movement.md
R136). -/
def Obligations.OnlySwAndPushWriteMemory : Prop :=
  ∀ (s t : State) (a : Addr), step s = .next t → memRead a t ≠ memRead a s →
    (∃ r h l, Executes s (.swMR r h l) ∧ a = (readAddr Config.params (.regs h l) s).1) ∨
    (∃ r h l, Executes s (.swMI r h l) ∧ a = (readAddr Config.params (.imm h l) s).1) ∨
    (∃ b, (Executes s (.pushSR b) ∨ Executes s (.pushSI b)) ∧ a = pushAddr Config.params s)

/-- No step changes a byte of ROM. That a core write to ROM aborts is the default of `P_ROM_WRITE` (20_memory.md R56,
decision D15, log 6). -/
def Obligations.CoreNeverChangesRom : Prop :=
  ∀ (s t : State) (a : Addr), step s = .next t → a.toNat < 0x8000 → memRead a t = memRead a s

/-- A step appends to the anomaly record at most three anomalies, each of an invalid code and with the PC and phase of the
access, and takes nothing from it (60_exceptions.md R201, R204; decision D28). -/
def Obligations.AnomalyRecordOnlyGrows : Prop :=
  ∀ s t : State, step s = .next t →
    ∃ new : List Anomaly, t.anomalies = s.anomalies ++ new ∧ new.length ≤ 3 ∧
      ∀ x ∈ new, namedReg x.code = none ∧ x.pc = s.pc ∧ x.phase = s.phase

/-- The I/O event latch and the two records never reach the program: a step from a state with other values there differs
only there (10_state.md R40). -/
def Obligations.LatchAndRecordsNeverReachTheProgram : Prop :=
  ∀ (s t : State) (v : Byte) (events : List Byte) (notes : List Anomaly), step s = .next t →
    ∃ (v' : Byte) (events' : List Byte) (notes' : List Anomaly),
      step { s with ioPrev := v, ioEvents := events, anomalies := notes } =
        .next { t with ioPrev := v', ioEvents := events', anomalies := notes' }

/-- No 2-byte instruction reads ARG2: another value there changes nothing else (10_state.md R32, decision D27). -/
def Obligations.TwoByteInstructionsIgnoreArg2 : Prop :=
  ∀ (s t : State) (v : Byte), s.phase = .p2 → needs2 Config.params s.ir = false → step s = .next t →
    step { s with arg2 := v } = .next { t with arg2 := v }

/-! Registers and memory -/

/-- R23: a valid code reads its register and changes nothing; an invalid code reads the sentinel 0xFF and records the
anomaly, and execution continues. -/
def Obligations.RegisterReadGivesValueOrSentinel : Prop :=
  ∀ (c : Byte) (s : State),
    (∀ r, regNamed Config.params c = some r → readReg Config.params c s = (s.regs.get r, s)) ∧
    (regNamed Config.params c = none →
      readReg Config.params c s =
        (0xFF, { s with anomalies := s.anomalies ++ [⟨.invalidRegisterRead, c, s.pc, s.phase⟩] }))

/-- A valid code takes the value written; a write to an invalid code changes no register and records the anomaly. That it
is discarded is the spec's decision D4 ("That the write is discarded is the spec's choice", 10_state.md R24). -/
def Obligations.RegisterWriteSetsOneOrIsDiscarded : Prop :=
  ∀ (c v : Byte) (s : State),
    RegWritten c v s (writeReg Config.params c v s) ∧
    (writeReg Config.params c v s).anomalies = s.anomalies ++ writeNote s c ∧
    { writeReg Config.params c v s with regs := s.regs, anomalies := s.anomalies } = s

/-- R55: a core write to RAM stores the byte at the address; nothing else changes. -/
def Obligations.CoreWriteToRamStoresOneByte : Prop :=
  ∀ (a : Addr) (v : Byte) (s : State), s.mem.wf = true → 0x8000 ≤ a.toNat → a.toNat < 0xFF00 →
    ∃ t, memWrite Config.params a v s = .ok t ∧ memRead a t = v ∧ SameMemoryBut a s t ∧ { t with mem := s.mem } = s

/-- A core write to the I/O window stores the byte and, at the two mirror addresses, sets one half of SP; no other I/O
address has an effect. The addresses are the defaults 0xFFFE and 0xFFFF, and that the cell keeps the byte is the spec's
decision (D13, D14, log 5). -/
def Obligations.CoreWriteToIoStoresAndMirrors : Prop :=
  ∀ (a : Addr) (v : Byte) (s : State), s.mem.wf = true → 0xFF00 ≤ a.toNat →
    ∃ t, memWrite Config.params a v s = .ok t ∧ memRead a t = v ∧ SameMemoryBut a s t ∧
      t.spl = (if a = 0xFFFE then v else s.spl) ∧ t.sph = (if a = 0xFFFF then v else s.sph) ∧
      { t with mem := s.mem, sph := s.sph, spl := s.spl } = s

/-! Data movement -/

/-- MOV copies its operand to the register that `d` names; an invalid code reads 0xFF or loses the write, with its anomaly
(41_data_movement.md, MOV; register codes are decision D2, log 1). -/
def Obligations.MovCopiesItsOperand : Prop :=
  ∀ (d b : Byte) (s : State),
    (∃ t, exec (.movRR d b) s = .next t ∧ RegWritten d (regVal s b) s t ∧
      t.anomalies = s.anomalies ++ readNote s b ++ writeNote s d ∧ t.phase = .p0 ∧ RegistersOnly s t) ∧
    (∃ t, exec (.movRI d b) s = .next t ∧ RegWritten d b s t ∧
      t.anomalies = s.anomalies ++ writeNote s d ∧ t.phase = .p0 ∧ RegistersOnly s t)

/-- LDA puts its two bytes into H and L (41_data_movement.md, LDA). -/
def Obligations.LdaLoadsThePointerRegisters : Prop :=
  ∀ (hi lo : Byte) (s : State),
    ∃ t, exec (.lda hi lo) s = .next t ∧
      (∀ r : Reg, t.regs.get r = if r = .H then hi else if r = .L then lo else s.regs.get r) ∧
      t.anomalies = s.anomalies ∧ t.phase = .p0 ∧ RegistersOnly s t

/-- LW reads the byte at its address, in any region, and writes it to the register of `RF`; the address is read from the
registers before the write (41_data_movement.md, LW; decision D10). -/
def Obligations.LwLoadsTheByteAtItsAddress : Prop :=
  ∀ (r h l : Byte) (s : State),
    (∃ t, exec (.lwMR r h l) s = .next t ∧
      RegWritten r (memRead (joinBytes (regVal s h) (regVal s l)) s) s t ∧
      t.anomalies = s.anomalies ++ readNote s h ++ readNote s l ++ writeNote s r ∧
      t.phase = .p0 ∧ RegistersOnly s t) ∧
    (∃ t, exec (.lwMI r h l) s = .next t ∧ RegWritten r (memRead (joinBytes h l) s) s t ∧
      t.anomalies = s.anomalies ++ writeNote s r ∧ t.phase = .p0 ∧ RegistersOnly s t)

/-- SW outside ROM stores the register of `RF` at its address and changes no other byte; at a mirror address it also sets
half of SP (41_data_movement.md, SW; decisions D10, D13). -/
def Obligations.SwStoresAtItsAddress : Prop :=
  ∀ (r h l : Byte) (s : State), s.mem.wf = true →
    ((readAddr Config.params (.regs h l) s).1 = joinBytes (regVal s h) (regVal s l) ∧
      (0x8000 ≤ (readAddr Config.params (.regs h l) s).1.toNat →
        ∃ t, exec (.swMR r h l) s = .next t ∧
          StoredAt (readAddr Config.params (.regs h l) s).1 (regVal s r) s.sp s t ∧
          t.anomalies = s.anomalies ++ readNote s h ++ readNote s l ++ readNote s r ∧ t.phase = .p0)) ∧
    ((readAddr Config.params (.imm h l) s).1 = joinBytes h l ∧
      (0x8000 ≤ (readAddr Config.params (.imm h l) s).1.toNat →
        ∃ t, exec (.swMI r h l) s = .next t ∧
          StoredAt (readAddr Config.params (.imm h l) s).1 (regVal s r) s.sp s t ∧
          t.anomalies = s.anomalies ++ readNote s r ∧ t.phase = .p0))

/-- SW into ROM aborts before the write, in its phase, and records the address; the anomalies of the reads before it stay.
That it aborts is the default of `P_ROM_WRITE` (20_memory.md R56, decision D15, log 6). -/
def Obligations.SwIntoRomAborts : Prop :=
  ∀ (r h l : Byte) (s : State),
    ((joinBytes (regVal s h) (regVal s l)).toNat < 0x8000 →
      ∃ t, exec (.swMR r h l) s = .next t ∧ AbortedWith (.romWrite (joinBytes (regVal s h) (regVal s l))) s t ∧
        t.sp = s.sp ∧ t.anomalies = s.anomalies ++ readNote s h ++ readNote s l ++ readNote s r) ∧
    ((joinBytes h l).toNat < 0x8000 →
      ∃ t, exec (.swMI r h l) s = .next t ∧ AbortedWith (.romWrite (joinBytes h l)) s t ∧
        t.sp = s.sp ∧ t.anomalies = s.anomalies ++ readNote s r)

/-- PUSH outside ROM decrements SP and stores its operand there; on a mirror address the write then sets half of the
decremented SP. The discipline is the default of `P_STACK` (41_data_movement.md, PUSH; decision D12, log 4). -/
def Obligations.PushStoresBelowSp : Prop :=
  ∀ (b : Byte) (s : State), s.mem.wf = true → pushAddr Config.params s = s.sp - 1 ∧
    (0x8000 ≤ (pushAddr Config.params s).toNat →
      (∃ t, exec (.pushSR b) s = .next t ∧
        StoredAt (pushAddr Config.params s) (regVal s b) (s.sp - 1) s t ∧
        t.anomalies = s.anomalies ++ readNote s b ∧ t.phase = .p0) ∧
      (∃ t, exec (.pushSI b) s = .next t ∧
        StoredAt (pushAddr Config.params s) b (s.sp - 1) s t ∧ t.anomalies = s.anomalies ∧ t.phase = .p0))

/-- PUSH into ROM aborts; the SP change before the write remains (60_exceptions.md R202; decisions D12, D15, logs 4, 6). -/
def Obligations.PushIntoRomAbortsAfterMovingSp : Prop :=
  ∀ (b : Byte) (s : State), (s.sp - 1).toNat < 0x8000 →
    (∃ t, exec (.pushSR b) s = .next t ∧ AbortedWith (.romWrite (s.sp - 1)) s t ∧ t.sp = s.sp - 1 ∧
      t.anomalies = s.anomalies ++ readNote s b) ∧
    (∃ t, exec (.pushSI b) s = .next t ∧ AbortedWith (.romWrite (s.sp - 1)) s t ∧ t.sp = s.sp - 1 ∧
      t.anomalies = s.anomalies)

/-- POP reads the byte at SP, in any region, increments SP and writes the byte to its destination, if that is a register
(41_data_movement.md, POP; decision D12, log 4). -/
def Obligations.PopLoadsFromSp : Prop :=
  ∀ (d : Byte) (s : State),
    ∃ t, exec (.popD d) s = .next t ∧ RegWritten d (memRead s.sp s) s t ∧ t.sp = s.sp + 1 ∧
      t.anomalies = s.anomalies ++ writeNote s d ∧ t.phase = .p0 ∧ SameMemory s t ∧ t.pc = s.pc ∧
      SameHidden s t ∧ SameStop s t

/-- JNZ goes to the pointer registers when its operand is not zero and otherwise leaves PC; it changes nothing else
(43_control.md, JNZ; decision D11). -/
def Obligations.JnzJumpsOnNonzero : Prop :=
  ∀ (b : Byte) (s : State),
    (∃ t, exec (.jnzSR b) s = .next t ∧
      t.pc = (if regVal s b = 0 then s.pc else joinBytes s.regs.h s.regs.l) ∧
      t.anomalies = s.anomalies ++ readNote s b ∧ SameRegs s t ∧ SameMemory s t ∧ t.sp = s.sp ∧
      SameHidden s t ∧ SameStop s t ∧ t.phase = .p0) ∧
    (∃ t, exec (.jnzSI b) s = .next t ∧
      t.pc = (if b = 0 then s.pc else joinBytes s.regs.h s.regs.l) ∧
      t.anomalies = s.anomalies ∧ SameRegs s t ∧ SameMemory s t ∧ t.sp = s.sp ∧
      SameHidden s t ∧ SameStop s t ∧ t.phase = .p0)

/-! ALU -/

/-- Phase 3 of ADD: the sum modulo 256 goes to the destination, CARRY is ORed into F when the sum exceeds 255, and phase 4
comes next (42_alu.md, ADD; decisions D5, D19). -/
def Obligations.AddWritesSumAndCarryInPhaseThree : Prop :=
  ∀ (d b : Byte) (s : State), s.phase = .p3 →
    (∃ t, exec (.addRR d b) s = .next t ∧ SumWritten 0 d (.reg b) s t) ∧
    (∃ t, exec (.addRI d b) s = .next t ∧ SumWritten 0 d (.imm b) s t)

/-- Phase 3 of ADC: as ADD, with CARRY, read before any write of the phase, added in (42_alu.md, ADC; decisions D5, D19). -/
def Obligations.AdcWritesSumWithCarryInPhaseThree : Prop :=
  ∀ (d b : Byte) (s : State), s.phase = .p3 →
    (∃ t, exec (.adcRR d b) s = .next t ∧ SumWritten (carryBit s) d (.reg b) s t) ∧
    (∃ t, exec (.adcRI d b) s = .next t ∧ SumWritten (carryBit s) d (.imm b) s t)

/-- Phase 4 of ADD and ADC: the comparison of the operands as they read now is ORed into F and nothing is cleared. That it
compares the re-read operands is the default of `P_ADD_CMP` (42_alu.md R156, decision D20, log 7). -/
def Obligations.AddAndAdcOrComparisonInPhaseFour : Prop :=
  ∀ (d b : Byte) (s : State), s.phase = .p4 →
    (∃ t, exec (.addRR d b) s = .next t ∧ ComparisonOred d (.reg b) s t) ∧
    (∃ t, exec (.addRI d b) s = .next t ∧ ComparisonOred d (.imm b) s t) ∧
    (∃ t, exec (.adcRR d b) s = .next t ∧ ComparisonOred d (.reg b) s t) ∧
    (∃ t, exec (.adcRI d b) s = .next t ∧ ComparisonOred d (.imm b) s t)

/-- The arithmetic laws over both phases of ADD and ADC, destination not F: the result is the sum modulo 256, CARRY after is
CARRY before or the sum exceeding 255, and F gains the comparison of the result with the second operand as phase 4 reads it
(42_alu.md R157; where that operand is F itself phase 4 reads the F that phase 3 wrote, R156, log 17). -/
def Obligations.AddAndAdcArithmeticLaws : Prop :=
  ∀ (d b : Byte) (q : Reg) (s : State), s.phase = .p3 → namedReg d = some q → q ≠ .F →
    (∃ t u, exec (.addRR d b) s = .next t ∧ exec (.addRR d b) t = .next u ∧ SumLaw 0 q (.reg b) s u) ∧
    (∃ t u, exec (.addRI d b) s = .next t ∧ exec (.addRI d b) t = .next u ∧ SumLaw 0 q (.imm b) s u) ∧
    (∃ t u, exec (.adcRR d b) s = .next t ∧ exec (.adcRR d b) t = .next u ∧ SumLaw (carryBit s) q (.reg b) s u) ∧
    (∃ t u, exec (.adcRI d b) s = .next t ∧ exec (.adcRI d b) t = .next u ∧ SumLaw (carryBit s) q (.imm b) s u)

/-- AND writes the bitwise AND of destination and operand, and no flag but through a destination F (42_alu.md, AND). -/
def Obligations.AndWritesTheConjunction : Prop :=
  ∀ (d b : Byte) (s : State),
    (∃ t, exec (.andRR d b) s = .next t ∧ RegWritten d (regVal s d &&& regVal s b) s t ∧
      t.anomalies = s.anomalies ++ readNote s d ++ readNote s b ++ writeNote s d ∧ t.phase = .p0 ∧
      RegistersOnly s t) ∧
    (∃ t, exec (.andRI d b) s = .next t ∧ RegWritten d (regVal s d &&& b) s t ∧
      t.anomalies = s.anomalies ++ readNote s d ++ writeNote s d ∧ t.phase = .p0 ∧ RegistersOnly s t)

/-- NOR writes the complement of the bitwise OR of destination and operand, and no flag but through a destination F
(42_alu.md, NOR). -/
def Obligations.NorWritesTheComplementedDisjunction : Prop :=
  ∀ (d b : Byte) (s : State),
    (∃ t, exec (.norRR d b) s = .next t ∧ RegWritten d (~~~(regVal s d ||| regVal s b)) s t ∧
      t.anomalies = s.anomalies ++ readNote s d ++ readNote s b ++ writeNote s d ∧ t.phase = .p0 ∧
      RegistersOnly s t) ∧
    (∃ t, exec (.norRI d b) s = .next t ∧ RegWritten d (~~~(regVal s d ||| b)) s t ∧
      t.anomalies = s.anomalies ++ readNote s d ++ writeNote s d ∧ t.phase = .p0 ∧ RegistersOnly s t)

/-- CMP replaces all of F by exactly one of GREATER, EQUAL, LESS, by an unsigned comparison of the values before; no other
register changes (42_alu.md, CMP; masks are decision D5, log 2). -/
def Obligations.CmpReplacesFlagsByTheComparison : Prop :=
  ∀ (a b : Byte) (s : State),
    (∃ t, exec (.cmpRR a b) s = .next t ∧ FlagsWritten (comparison (regVal s a) (regVal s b)) s t ∧
      t.anomalies = s.anomalies ++ readNote s a ++ readNote s b ∧ t.phase = .p0 ∧ RegistersOnly s t) ∧
    (∃ t, exec (.cmpRI a b) s = .next t ∧ FlagsWritten (comparison (regVal s a) b) s t ∧
      t.anomalies = s.anomalies ++ readNote s a ∧ t.phase = .p0 ∧ RegistersOnly s t)

/-! Other parameter values -/

/-- At the default parameter values the parametric machine is the machine of `step`. -/
def Obligations.ParametricStepAtDefaultsIsStep : Prop := ∀ s : State, stepWith Params.default s = step s

/-- Under `P_ADD_CMP = pre_write` phase 4 compares the operands as phase 3 read them, reads no register again and so records
no anomaly (42_alu.md R156, decision D20). -/
def Obligations.PreWriteComparesHeldOperands : Prop :=
  ∀ (p : Params) (d b : Byte) (s : State) (i : Instr) (o : Operand),
    p.addCmp = .preWrite → s.phase = .p3 →
    (i, o) ∈ [(Instr.addRR d b, Operand.reg b), (.addRI d b, .imm b), (.adcRR d b, .reg b), (.adcRI d b, .imm b)] →
    ∃ t u, execWith p i s = .next t ∧ execWith p i t = .next u ∧
      u.regs.f = t.regs.f ||| cmpbits p (readOperandReg p d s).1 (readOperand p o s).1 ∧
      (∀ r : Reg, r ≠ .F → u.regs.get r = t.regs.get r) ∧ u.anomalies = t.anomalies ∧ u.phase = .p0

/-- Under `P_STACK = postdec_push` PUSH, in both forms, stores at SP, the write sets half of SP at a mirror address, and then
SP is decremented; into ROM it aborts with SP as it was. POP increments SP and then reads there (41_data_movement.md, PUSH and
POP; 20_memory.md R58; decisions D12, D13, D15, logs 4 to 6). -/
def Obligations.PostdecrementStackDiscipline : Prop :=
  ∀ (p : Params) (b : Byte) (s : State), p.stack = .postdecPush → p.wfMap = true → s.mem.wf = true →
    (∀ (i : Instr) (o : Operand), (i, o) ∈ [(Instr.pushSR b, Operand.reg b), (.pushSI b, .imm b)] →
      (¬ pushAddr p s < p.ramBase →
        ∃ t, execWith p i s = .next t ∧
          memRead (pushAddr p s) t = (readOperand p o s).1 ∧ SameMemoryBut (pushAddr p s) s t ∧
          t.sp = (if s.sp = p.splAddr then joinBytes s.sph (readOperand p o s).1
            else if s.sp = p.sphAddr then joinBytes (readOperand p o s).1 s.spl else s.sp) - 1 ∧
          t.anomalies = (readOperand p o s).2.anomalies ∧ SameRegs s t ∧ t.pc = s.pc ∧ SameHidden s t ∧
          SameStop s t ∧ t.phase = .p0) ∧
      (pushAddr p s < p.ramBase → p.romWrite = .abort →
        ∃ t, execWith p i s = .next t ∧ AbortedWith (.romWrite (pushAddr p s)) s t ∧ t.sp = s.sp ∧
          t.anomalies = (readOperand p o s).2.anomalies)) ∧
    pushAddr p s = s.sp ∧
    ∃ t, execWith p (.popD b) s = .next t ∧ t.sp = s.sp + 1 ∧
      (∀ r : Reg, t.regs.get r =
        if regNamed p (operandCode p b) = some r then memRead (s.sp + 1) s else s.regs.get r) ∧
      t.anomalies = s.anomalies ++
        (if regNamed p (operandCode p b) = none then [⟨.invalidRegisterWrite, operandCode p b, s.pc, s.phase⟩] else []) ∧
      SameMemory s t ∧ t.pc = s.pc ∧ SameHidden s t ∧ SameStop s t ∧ t.phase = .p0

/-- The two other effects of a core write to ROM: `discard` changes nothing, `store` stores the byte (20_memory.md R56,
decision D15). -/
def Obligations.RomWritePoliciesDiscardAndStore : Prop :=
  ∀ (p : Params) (a : Addr) (v : Byte) (s : State), a < p.ramBase → s.mem.wf = true →
    (p.romWrite = .discard → memWrite p a v s = .ok s) ∧
    (p.romWrite = .store →
      ∃ t, memWrite p a v s = .ok t ∧ memRead a t = v ∧ SameMemoryBut a s t ∧ { t with mem := s.mem } = s)

/-- Which operand bytes are invalid register codes: 7 to 255 under `full_byte`, those with bits 2:0 all set under `low3`
(10_state.md R22, decision D3). -/
def Obligations.InvalidOperandBytes : Prop :=
  (∀ b : Byte, regNamed Config.params (operandCode Config.params b) = none ↔ 7 ≤ b.toNat) ∧
  (∀ p : Params, p.wfRegCodes = true → p.regCode = Params.default.regCode → p.regDec = .low3 →
    ∀ b : Byte, regNamed p (operandCode p b) = none ↔ b &&& 7 = 7)

/-! The host -/

/-- A host write changes the addressed byte and nothing else: no mirror into SP and no ROM policy; there is no host write to
a mirror address (20_memory.md R73, decision D24). -/
def Obligations.HostWriteChangesOneByte : Prop :=
  ∀ (a : Addr) (v : Byte) (s : State), s.mem.wf = true →
    (a ≠ 0xFFFE → a ≠ 0xFFFF →
      ∃ t, hostWrite Config.params a v s = some t ∧ hostRead a t = v ∧ SameMemoryBut a s t ∧
        { t with mem := s.mem } = s) ∧
    (a = 0xFFFE ∨ a = 0xFFFF → hostWrite Config.params a v s = none)

/-- An image that ends below the mirror addresses is loaded at 0x8000 byte for byte, in order, and nothing else changes
(20_memory.md R72, decision D24). -/
def Obligations.LoadImagePlacesItsBytes : Prop :=
  ∀ (image : List Byte) (s : State), s.mem.wf = true → 0x8000 + image.length ≤ 0xFFFE →
    ∃ t, loadImage Config.params image s = some t ∧
      (∀ (k : Nat) (h : k < image.length), memRead (BitVec.ofNat 16 (0x8000 + k)) t = image[k]) ∧
      (∀ a : Addr, a.toNat < 0x8000 ∨ 0x8000 + image.length ≤ a.toNat → memRead a t = memRead a s) ∧
      t.mem.wf = true ∧ { t with mem := s.mem } = s

/-! Pseudo-instructions -/

/-- The expansion of every pseudo-instruction has the byte length of the table of 44_pseudo.md R196 and the step count of
70_reset_and_hazards.md R234 (decision D30). -/
def Obligations.PseudoExpansionsHaveTheirLengths : Prop :=
  ∀ (q : Pseudo) (is : List Instr), q.expand Config.params = some is →
    (is.flatMap (encode Config.params)).length = q.bytes ∧ (is.map instrSteps).sum = q.steps

/-- The bytes of every expansion are those of 44_pseudo.md R181 to R195, in both operand forms, and the operands that the
assembler must reject have none (decisions D8, D30; U16; log 18). The registers' codes are H 5, L 4, F 6. -/
def Obligations.PseudoExpansionsAreTheSpecBytes : Prop :=
  (∀ hi lo : Byte,
    (Pseudo.jmp (.abs hi lo)).code = some [0x84, hi, lo, 0x87, 0x01] ∧
    (Pseudo.jc (.abs hi lo)).code = some [0x8A, 0x06, 0x01, 0x84, hi, lo, 0x07, 0x06] ∧
    (Pseudo.jnc (.abs hi lo)).code = some [0x0B, 0x06, 0x06, 0x8A, 0x06, 0x01, 0x84, hi, lo, 0x07, 0x06] ∧
    ∀ here : Addr, (Pseudo.call here (.abs hi lo)).code =
      some [0x85, hiByte (here + 9), 0x85, loByte (here + 9), 0x84, hi, lo, 0x87, 0x01]) ∧
  (∀ rh rl : Byte,
    (Pseudo.jmp (.pair rh rl)).code =
      (if rl = 0x05 then none else some [0x01, 0x05, rh, 0x01, 0x04, rl, 0x87, 0x01]) ∧
    (Pseudo.jc (.pair rh rl)).code = some [0x8A, 0x06, 0x01, 0x01, 0x05, rh, 0x01, 0x04, rl, 0x07, 0x06] ∧
    (Pseudo.jnc (.pair rh rl)).code =
      some [0x0B, 0x06, 0x06, 0x8A, 0x06, 0x01, 0x01, 0x05, rh, 0x01, 0x04, rl, 0x07, 0x06] ∧
    ∀ here : Addr, (Pseudo.call here (.pair rh rl)).code =
      some [0x85, hiByte (here + 12), 0x85, loByte (here + 12), 0x01, 0x05, rh, 0x01, 0x04, rl, 0x87, 0x01]) ∧
  (∀ d s : Byte,
    (Pseudo.nand d (.reg s)).code = some [0x0A, d, s, 0x0B, d, d] ∧
    (Pseudo.xor d (.reg s)).code =
      (if d = 0x04 ∨ s = 0x04 then none
        else some [0x01, 0x04, d, 0x0B, 0x04, s, 0x0A, d, s, 0x0B, d, 0x04]) ∧
    (Pseudo.xnor d (.reg s)).code =
      (if d = 0x04 ∨ s = 0x04 then none
        else some [0x01, 0x04, d, 0x0B, 0x04, s, 0x0A, d, s, 0x0B, d, 0x04, 0x0B, d, d]) ∧
    (Pseudo.sub d (.reg s)).code =
      (if d = s then none else some [0x0B, s, s, 0x81, 0x06, 0x01, 0x09, d, s])) ∧
  (∀ d i : Byte,
    (Pseudo.nand d (.imm i)).code = some [0x8A, d, i, 0x0B, d, d] ∧
    (Pseudo.xor d (.imm i)).code =
      (if d = 0x04 then none else some [0x01, 0x04, d, 0x8B, 0x04, i, 0x8A, d, i, 0x0B, d, 0x04]) ∧
    (Pseudo.xnor d (.imm i)).code =
      (if d = 0x04 then none
        else some [0x01, 0x04, d, 0x8B, 0x04, i, 0x8A, d, i, 0x0B, d, 0x04, 0x0B, d, d]) ∧
    (Pseudo.sub d (.imm i)).code = some [0x81, 0x06, 0x01, 0x89, d, ~~~i]) ∧
  (∀ d a b : Byte,
    (Pseudo.compare .gt d a (.reg b)).code = some [0x0C, a, b, 0x8A, 0x06, 0x02, 0x01, d, 0x06] ∧
    (Pseudo.compare .lt d a (.reg b)).code = some [0x0C, a, b, 0x8A, 0x06, 0x08, 0x01, d, 0x06] ∧
    (Pseudo.compare .eq d a (.reg b)).code = some [0x0C, a, b, 0x8A, 0x06, 0x04, 0x01, d, 0x06] ∧
    (Pseudo.compare .gt d a (.imm b)).code = some [0x8C, a, b, 0x8A, 0x06, 0x02, 0x01, d, 0x06] ∧
    (Pseudo.compare .lt d a (.imm b)).code = some [0x8C, a, b, 0x8A, 0x06, 0x08, 0x01, d, 0x06] ∧
    (Pseudo.compare .eq d a (.imm b)).code = some [0x8C, a, b, 0x8A, 0x06, 0x04, 0x01, d, 0x06]) ∧
  (∀ d : Byte,
    (Pseudo.not d).code = some [0x0B, d, d] ∧
    (Pseudo.inc d).code = some [0x88, d, 0x01] ∧
    (Pseudo.dec d).code = some [0x81, 0x06, 0x01, 0x89, d, 0xFE]) ∧
  Pseudo.ret.code = some [0x06, 0x04, 0x06, 0x05, 0x87, 0x01] ∧
  Pseudo.nop.code = some [0x01, 0x00, 0x00]

/-! What the host may do and see, and the end of a run -/

/-- A host move is a reset, or it changes memory alone and never a mirror cell; it keeps the invariant. There is no host move
that writes a register (60_exceptions.md R203, decision D34, log 14). -/
def Obligations.HostMovesWriteMemoryOrReset : Prop :=
  ∀ (m : HostMove) (s t : State), hostMove Config.params m s = some t →
    (m = .reset → t = State.reset) ∧
    (m ≠ .reset →
      { t with mem := s.mem } = s ∧ hostReadout t = hostReadout s ∧
        memRead 0xFFFE t = memRead 0xFFFE s ∧ memRead 0xFFFF t = memRead 0xFFFF s) ∧
    (s.Inv → t.Inv)

/-- The host's readout of the registers, with the bytes of memory, the outputs and the two operands held by the model, is the
whole state: no register is hidden from the host (10_state.md R40, 60_exceptions.md R213, decision D34; logs 7, 8, 10). -/
def Obligations.HostReadsTheWholeState : Prop :=
  ∀ s t : State, s.mem.wf = true → t.mem.wf = true → hostReadout s = hostReadout t →
    (∀ a : Addr, hostRead a s = hostRead a t) → s.fault = t.fault → s.anomalies = t.anomalies →
    s.ioEvents = t.ioEvents → s.addA = t.addA → s.addB = t.addB → s = t

/-- The end of a run is the first state with `phase = 0` and `PC = e`: no state before it is one (43_control.md R174, decision
D36; log 23). That a run is step calls alone, with no host move between them, is the model's choice (log 24). -/
def Obligations.EndOfRunIsTheFirstEndState : Prop :=
  ∀ (e : Addr) (n : Nat) (s t : State),
    endOfRun e n s = some t ↔
      ∃ k, k ≤ n ∧ runFor k s = .next t ∧ t.phase = .p0 ∧ t.pc = e ∧
        ∀ j u, j < k → runFor j s = .next u → ¬ (u.phase = .p0 ∧ u.pc = e)
end

