-- ==== Sys2Proof/Laws/Decode.lean ====
section
/-! SUPPORT. What the decoder and the encoder do to an opcode byte, said once. -/

namespace Sys2Proof

/-- The fields of an opcode byte put together are the byte. -/
theorem opcode_fields_join (b : Byte) :
    (if opcodeImm b then (0x80 : Byte) else 0) ||| ((opcodeReg b &&& 7) <<< 4) ||| (opcodeId b).setWidth 8 = b := by
  revert b
  decide +kernel

theorem opcodeReg_lt (b : Byte) : (opcodeReg b).toNat < 8 := by
  revert b
  decide +kernel

/-- The fields read back from fields put together. -/
theorem opcode_fields_split : ∀ (i : Bool) (r : BitVec 3) (k : BitVec 4),
    let b : Byte := (if i then (0x80 : Byte) else 0) ||| ((r.setWidth 8 &&& 7) <<< 4) ||| k.setWidth 8
    opcodeImm b = i ∧ opcodeReg b = r.setWidth 8 ∧ opcodeId b = k := by
  decide +kernel

/-- What the encoder writes into the three fields. -/
theorem encodeOpcode_fields (p : Params) (o : Opcode) (h : o.reg.toNat < 8) :
    opcodeImm (encodeOpcode p o) = o.imm ∧ opcodeReg (encodeOpcode p o) = o.reg ∧
      opcodeId (encodeOpcode p o) = p.opcode.of o.prim := by
  have e : (o.reg.setWidth 3).setWidth 8 = o.reg := by
    apply BitVec.eq_of_toNat_eq
    rw [BitVec.toNat_setWidth, BitVec.toNat_setWidth]
    omega
  have := opcode_fields_split o.imm (o.reg.setWidth 3) (p.opcode.of o.prim)
  rw [e] at this
  exact this

/-- What a defined opcode byte says (30_encoding.md R89). -/
theorem decodeOpcode_ok {p : Params} {b : Byte} {o : Opcode} (h : decodeOpcode p b = .ok o) :
    p.opcode.of o.prim = opcodeId b ∧ o.imm = opcodeImm b ∧ o.reg = opcodeReg b ∧
      (o.prim ≠ .lw → o.prim ≠ .sw → o.reg = 0) ∧ (o.prim = .lda → o.imm = true) ∧ (o.prim = .pop → o.imm = false) := by
  unfold decodeOpcode at h
  cases hp : p.primitiveOf (opcodeId b) with
  | none => rw [hp] at h; cases h
  | some k =>
    have hk : p.opcode.of k = opcodeId b := by
      have := List.find?_some hp
      simpa using this
    rw [hp] at h
    cases k <;> dsimp only at h
    case lw => cases h; exact ⟨hk, rfl, rfl, fun e => absurd rfl e, nofun, nofun⟩
    case sw => cases h; exact ⟨hk, rfl, rfl, fun _ e => absurd rfl e, nofun, nofun⟩
    all_goals
      split at h
      · cases h
      · next hz =>
        have hz' : opcodeReg b = 0 := not_not.1 hz
        cases hi : opcodeImm b <;> rw [hi] at h <;> cases h <;>
          exact ⟨hk, rfl, hz'.symm, fun _ _ => rfl, fun _ => by first | rfl | contradiction,
            fun _ => by first | rfl | contradiction⟩

/-- A rejected opcode byte is rejected by its own name. -/
theorem decodeOpcode_error {p : Params} {b : Byte} {e : DecodeError} (h : decodeOpcode p b = .error e) :
    e = .undefinedOpcode b := by
  unfold decodeOpcode at h
  split at h
  · cases h; rfl
  · cases h
  · cases h
  · split at h
    · cases h; rfl
    · split at h <;> cases h <;> rfl

/-- A primitive is found by its identity when the identities differ. -/
theorem primitiveOf_of (p : Params) (h : p.wfOpcodes = true) (k : Primitive) :
    p.primitiveOf (p.opcode.of k) = some k := by
  have find : ∀ l : List Primitive, (l.map p.opcode.of).Nodup → k ∈ l →
      l.find? (fun x => p.opcode.of x == p.opcode.of k) = some k := by
    intro l
    induction l with
    | nil => exact fun _ hk => nomatch hk
    | cons a l ih =>
      intro hn hk
      rw [List.map_cons, List.nodup_cons] at hn
      rw [List.find?_cons]
      rcases List.mem_cons.1 hk with rfl | hk'
      · simp
      · have ne : p.opcode.of a ≠ p.opcode.of k := fun e => hn.1 (e ▸ List.mem_map_of_mem hk')
        have e : (p.opcode.of a == p.opcode.of k) = false := by simpa using ne
        rw [e]
        exact ih hn.2 hk'
  exact find _ (by simpa [Params.wfOpcodes] using h) (by cases k <;> decide)

theorem decode_cons (p : Params) (b : Byte) (bs : List Byte) :
    decode p (b :: bs) =
      match decodeOpcode p b with
      | .error e => .error e
      | .ok o =>
        match o.prim.length, bs with
        | 2, arg1 :: rest => .ok (o.instr arg1 0, rest)
        | 3, arg1 :: arg2 :: rest => .ok (o.instr arg1 arg2, rest)
        | _, _ => .error .truncated := rfl

end Sys2Proof
end

