-- ==== Sys2Proof/Laws/Memory.lean ====
section
/-! SUPPORT. The laws of memory: read after write, and every operation keeps the canonical form. -/

namespace Sys2Proof.Machine

theorem Memory.read_cons_self (a : Nat) (v : Byte) (m : Memory) (h : v = Memory.unlisted → m.read a = Memory.unlisted) :
    Memory.read (Memory.cons a v m) a = v := by
  unfold Memory.cons
  split
  · next e => rw [h e, e]
  · simp [Memory.read]

theorem Memory.read_cons_ne {a b : Nat} (h : b ≠ a) (v : Byte) (m : Memory) :
    Memory.read (Memory.cons a v m) b = Memory.read m b := by
  unfold Memory.cons
  split
  · rfl
  · simp [Memory.read, h]

/-- Below its least address a canonical memory lists nothing. -/
theorem Memory.read_of_wfAbove {m : Memory} {lo a : Nat} (h : Memory.wfAbove (some lo) m = true) (ha : a ≤ lo) :
    Memory.read m a = Memory.unlisted := by
  induction m generalizing lo with
  | nil => rfl
  | cons c m ih =>
    simp only [Memory.wfAbove, Bool.and_eq_true, decide_eq_true_eq] at h
    obtain ⟨⟨⟨h1, -⟩, -⟩, h2⟩ := h
    rw [Memory.read, if_neg (by omega), ih h2 (by omega)]

theorem Memory.read_write_ne {a b : Nat} (h : b ≠ a) (v : Byte) (m : Memory) :
    Memory.read (Memory.write m a v) b = Memory.read m b := by
  induction m with
  | nil => exact Memory.read_cons_ne h v []
  | cons c m ih =>
    rw [Memory.write]
    split
    · exact Memory.read_cons_ne h v _
    · split
      · next e => rw [Memory.read_cons_ne h, Memory.read, if_neg (by omega)]
      · simp only [Memory.read, ih]

theorem Memory.read_write_self_of_above {m : Memory} {lo : Option Nat} (h : Memory.wfAbove lo m = true) (a : Nat)
    (v : Byte) : Memory.read (Memory.write m a v) a = v := by
  induction m generalizing lo with
  | nil => exact Memory.read_cons_self a v [] (fun _ => rfl)
  | cons c m ih =>
    obtain ⟨b, w⟩ := c
    have hm : Memory.wfAbove (some b) m = true := by
      simp only [Memory.wfAbove, Bool.and_eq_true] at h
      exact h.2
    rw [Memory.write]
    split
    · next hlt =>
      refine Memory.read_cons_self a v _ (fun _ => ?_)
      rw [Memory.read, if_neg (by omega)]
      exact Memory.read_of_wfAbove hm (by omega)
    · split
      · next e => exact Memory.read_cons_self a v m (fun _ => Memory.read_of_wfAbove hm (by omega))
      · next e => rw [Memory.read, if_neg e]; exact ih hm

/-- A read after a write to the same address gives the value written. -/
theorem Memory.read_write_self {m : Memory} (h : m.wf = true) (a : Nat) (v : Byte) :
    Memory.read (Memory.write m a v) a = v := Memory.read_write_self_of_above h a v

theorem Memory.wfAbove_mono {m : Memory} {lo hi : Nat} (h : Memory.wfAbove (some hi) m = true) (hl : lo ≤ hi) :
    Memory.wfAbove (some lo) m = true := by
  cases m with
  | nil => rfl
  | cons c m =>
    simp only [Memory.wfAbove, Bool.and_eq_true, decide_eq_true_eq] at h ⊢
    obtain ⟨⟨⟨h1, h2⟩, h3⟩, h4⟩ := h
    exact ⟨⟨⟨by omega, h2⟩, h3⟩, h4⟩

/-- `lo` is below `a`, where `none` is below everything. -/
def Memory.below (lo : Option Nat) (a : Nat) : Prop := ∀ b, lo = some b → b < a

theorem Memory.wfAbove_cons_iff {lo : Option Nat} {a : Nat} {v : Byte} {m : Memory} :
    Memory.wfAbove lo ((a, v) :: m) = true ↔
      Memory.below lo a ∧ a < 65536 ∧ v ≠ Memory.unlisted ∧ Memory.wfAbove (some a) m = true := by
  cases lo <;> simp [Memory.wfAbove, Memory.below, and_assoc]

theorem Memory.cons_wfAbove {lo : Option Nat} {a : Nat} {v : Byte} {m : Memory} (hlo : Memory.below lo a)
    (ha : a < 65536) (hm : Memory.wfAbove (some a) m = true) : Memory.wfAbove lo (Memory.cons a v m) = true := by
  unfold Memory.cons
  split
  · cases m with
    | nil => rfl
    | cons c m =>
      obtain ⟨b, w⟩ := c
      rw [Memory.wfAbove_cons_iff] at hm ⊢
      exact ⟨fun x hx => lt_trans (hlo x hx) (hm.1 a rfl), hm.2⟩
  · next hv => exact Memory.wfAbove_cons_iff.2 ⟨hlo, ha, hv, hm⟩

theorem Memory.write_wfAbove {m : Memory} {lo : Option Nat} {a : Nat} (v : Byte) (h : Memory.wfAbove lo m = true)
    (hlo : Memory.below lo a) (ha : a < 65536) : Memory.wfAbove lo (Memory.write m a v) = true := by
  induction m generalizing lo with
  | nil => exact Memory.cons_wfAbove hlo ha rfl
  | cons c m ih =>
    obtain ⟨b, w⟩ := c
    have hc := Memory.wfAbove_cons_iff.1 h
    rw [Memory.write]
    split
    · next hlt =>
      refine Memory.cons_wfAbove hlo ha (Memory.wfAbove_cons_iff.2 ⟨?_, hc.2⟩)
      intro x hx
      cases hx
      exact hlt
    · split
      · next e => subst e; exact Memory.cons_wfAbove hlo ha hc.2.2.2
      · next e =>
        refine Memory.wfAbove_cons_iff.2 ⟨hc.1, hc.2.1, hc.2.2.1, ih hc.2.2.2 ?_⟩
        intro x hx
        cases hx
        omega

/-- A write keeps the canonical form. -/
theorem Memory.write_wf {m : Memory} (h : m.wf = true) {a : Nat} (ha : a < 65536) (v : Byte) :
    (Memory.write m a v).wf = true :=
  Memory.write_wfAbove v h (fun _ hx => by cases hx) ha

theorem Memory.reset_wf : State.reset.mem.wf = true := rfl

/-- Memories in canonical form that read alike are equal. -/
theorem Memory.ext_of_wfAbove {m n : Memory} {lo : Option Nat} (hm : Memory.wfAbove lo m = true)
    (hn : Memory.wfAbove lo n = true) (h : ∀ a, m.read a = n.read a) : m = n := by
  induction m generalizing n lo with
  | nil =>
    cases n with
    | nil => rfl
    | cons c n =>
      obtain ⟨b, w⟩ := c
      have hc := Memory.wfAbove_cons_iff.1 hn
      have e := h b
      simp only [Memory.read, if_true] at e
      exact absurd e.symm hc.2.2.1
  | cons c m ih =>
    obtain ⟨a, v⟩ := c
    have hc := Memory.wfAbove_cons_iff.1 hm
    cases n with
    | nil =>
      have e := h a
      simp only [Memory.read, if_true] at e
      exact absurd e hc.2.2.1
    | cons d n =>
      obtain ⟨b, w⟩ := d
      have hd := Memory.wfAbove_cons_iff.1 hn
      have hab : a = b := by
        rcases lt_trichotomy a b with hlt | heq | hgt
        · have e := h a
          rw [Memory.read, if_pos rfl, Memory.read, if_neg (by omega), Memory.read_of_wfAbove hd.2.2.2 (by omega)] at e
          exact absurd e hc.2.2.1
        · exact heq
        · have e := h b
          rw [Memory.read, if_neg (by omega), Memory.read_of_wfAbove hc.2.2.2 (by omega), Memory.read, if_pos rfl] at e
          exact absurd e.symm hd.2.2.1
      subst hab
      have hvw : v = w := by
        have e := h a
        simpa [Memory.read] using e
      subst hvw
      congr 1
      refine ih hc.2.2.2 hd.2.2.2 (fun x => ?_)
      by_cases hx : x = a
      · subst hx
        rw [Memory.read_of_wfAbove hc.2.2.2 le_rfl, Memory.read_of_wfAbove hd.2.2.2 le_rfl]
      · have e := h x
        rwa [Memory.read, if_neg hx, Memory.read, if_neg hx] at e

/-- Reading a byte after storing one. -/
theorem memRead_setByte_ne {a b : Addr} (h : b ≠ a) (v : Byte) (s : State) : memRead b (s.setByte a v) = memRead b s :=
  Memory.read_write_ne (fun e => h (BitVec.eq_of_toNat_eq e)) v s.mem

theorem memRead_setByte_self {s : State} (h : s.mem.wf = true) (a : Addr) (v : Byte) : memRead a (s.setByte a v) = v :=
  Memory.read_write_self h a.toNat v

theorem setByte_wf {s : State} (h : s.mem.wf = true) (a : Addr) (v : Byte) : (s.setByte a v).mem.wf = true :=
  Memory.write_wf h a.isLt v

/-- A read depends on memory alone. -/
theorem memRead_congr {s t : State} (h : t.mem = s.mem) (a : Addr) : memRead a t = memRead a s := by
  unfold memRead
  rw [h]

end Sys2Proof.Machine
end

