-- ==== Sys2Proof/Laws/State.lean ====
section
/-! SUPPORT. One lemma per field per update of the state, and the laws of its 16-bit and register views. -/

namespace Sys2Proof.Machine

theorem joinBytes_toNat (h l : Byte) : (joinBytes h l).toNat = h.toNat * 256 + l.toNat := by
  have e : (joinBytes h l).toNat = h.toNat <<< 8 ||| l.toNat := BitVec.toNat_append h l
  rw [e, ← Nat.shiftLeft_add_eq_or_of_lt l.isLt, Nat.shiftLeft_eq]

theorem hiByte_toNat (a : Addr) : (hiByte a).toNat = a.toNat / 256 := by
  have := a.isLt
  simp only [hiByte, BitVec.extractLsb'_toNat, Nat.shiftRight_eq_div_pow]
  omega

theorem loByte_toNat (a : Addr) : (loByte a).toNat = a.toNat % 256 := by
  simp [loByte, BitVec.extractLsb'_toNat]

theorem joinBytes_hi_lo (a : Addr) : joinBytes (hiByte a) (loByte a) = a := by
  apply BitVec.eq_of_toNat_eq
  rw [joinBytes_toNat, hiByte_toNat, loByte_toNat]
  omega

@[simp] theorem hiByte_joinBytes (h l : Byte) : hiByte (joinBytes h l) = h := by
  apply BitVec.eq_of_toNat_eq
  have := l.isLt
  rw [hiByte_toNat, joinBytes_toNat]
  omega

@[simp] theorem loByte_joinBytes (h l : Byte) : loByte (joinBytes h l) = l := by
  apply BitVec.eq_of_toNat_eq
  have := l.isLt
  rw [loByte_toNat, joinBytes_toNat]
  omega

@[simp] theorem setPc_pc (s : State) (v : Addr) : (s.setPc v).pc = v := joinBytes_hi_lo v

@[simp] theorem setSp_sp (s : State) (v : Addr) : (s.setSp v).sp = v := joinBytes_hi_lo v

@[simp] theorem advance_pc (s : State) : s.advance.pc = s.pc + 1 := setPc_pc s _

@[simp] theorem RegFile.get_set (x : RegFile) (r q : Reg) (v : Byte) :
    (x.set r v).get q = if q = r then v else x.get q := by
  cases r <;> cases q <;> rfl

@[simp] theorem setPc_regs (s : State) (v : Addr) : (s.setPc v).regs = s.regs := rfl
@[simp] theorem setPc_pch (s : State) (v : Addr) : (s.setPc v).pch = hiByte v := rfl
@[simp] theorem setPc_pcl (s : State) (v : Addr) : (s.setPc v).pcl = loByte v := rfl
@[simp] theorem setPc_sph (s : State) (v : Addr) : (s.setPc v).sph = s.sph := rfl
@[simp] theorem setPc_spl (s : State) (v : Addr) : (s.setPc v).spl = s.spl := rfl
@[simp] theorem setPc_ir (s : State) (v : Addr) : (s.setPc v).ir = s.ir := rfl
@[simp] theorem setPc_arg1 (s : State) (v : Addr) : (s.setPc v).arg1 = s.arg1 := rfl
@[simp] theorem setPc_arg2 (s : State) (v : Addr) : (s.setPc v).arg2 = s.arg2 := rfl
@[simp] theorem setPc_phase (s : State) (v : Addr) : (s.setPc v).phase = s.phase := rfl
@[simp] theorem setPc_ioPrev (s : State) (v : Addr) : (s.setPc v).ioPrev = s.ioPrev := rfl
@[simp] theorem setPc_mem (s : State) (v : Addr) : (s.setPc v).mem = s.mem := rfl
@[simp] theorem setPc_faulted (s : State) (v : Addr) : (s.setPc v).faulted = s.faulted := rfl
@[simp] theorem setPc_fault (s : State) (v : Addr) : (s.setPc v).fault = s.fault := rfl
@[simp] theorem setPc_anomalies (s : State) (v : Addr) : (s.setPc v).anomalies = s.anomalies := rfl
@[simp] theorem setPc_ioEvents (s : State) (v : Addr) : (s.setPc v).ioEvents = s.ioEvents := rfl
@[simp] theorem setPc_addA (s : State) (v : Addr) : (s.setPc v).addA = s.addA := rfl
@[simp] theorem setPc_addB (s : State) (v : Addr) : (s.setPc v).addB = s.addB := rfl
@[simp] theorem setPc_sp (s : State) (v : Addr) : (s.setPc v).sp = s.sp := rfl

@[simp] theorem setSp_regs (s : State) (v : Addr) : (s.setSp v).regs = s.regs := rfl
@[simp] theorem setSp_pch (s : State) (v : Addr) : (s.setSp v).pch = s.pch := rfl
@[simp] theorem setSp_pcl (s : State) (v : Addr) : (s.setSp v).pcl = s.pcl := rfl
@[simp] theorem setSp_sph (s : State) (v : Addr) : (s.setSp v).sph = hiByte v := rfl
@[simp] theorem setSp_spl (s : State) (v : Addr) : (s.setSp v).spl = loByte v := rfl
@[simp] theorem setSp_ir (s : State) (v : Addr) : (s.setSp v).ir = s.ir := rfl
@[simp] theorem setSp_arg1 (s : State) (v : Addr) : (s.setSp v).arg1 = s.arg1 := rfl
@[simp] theorem setSp_arg2 (s : State) (v : Addr) : (s.setSp v).arg2 = s.arg2 := rfl
@[simp] theorem setSp_phase (s : State) (v : Addr) : (s.setSp v).phase = s.phase := rfl
@[simp] theorem setSp_ioPrev (s : State) (v : Addr) : (s.setSp v).ioPrev = s.ioPrev := rfl
@[simp] theorem setSp_mem (s : State) (v : Addr) : (s.setSp v).mem = s.mem := rfl
@[simp] theorem setSp_faulted (s : State) (v : Addr) : (s.setSp v).faulted = s.faulted := rfl
@[simp] theorem setSp_fault (s : State) (v : Addr) : (s.setSp v).fault = s.fault := rfl
@[simp] theorem setSp_anomalies (s : State) (v : Addr) : (s.setSp v).anomalies = s.anomalies := rfl
@[simp] theorem setSp_ioEvents (s : State) (v : Addr) : (s.setSp v).ioEvents = s.ioEvents := rfl
@[simp] theorem setSp_addA (s : State) (v : Addr) : (s.setSp v).addA = s.addA := rfl
@[simp] theorem setSp_addB (s : State) (v : Addr) : (s.setSp v).addB = s.addB := rfl
@[simp] theorem setSp_pc (s : State) (v : Addr) : (s.setSp v).pc = s.pc := rfl

@[simp] theorem setReg_regs (s : State) (r : Reg) (v : Byte) : (s.setReg r v).regs = s.regs.set r v := rfl
@[simp] theorem setReg_pch (s : State) (r : Reg) (v : Byte) : (s.setReg r v).pch = s.pch := rfl
@[simp] theorem setReg_pcl (s : State) (r : Reg) (v : Byte) : (s.setReg r v).pcl = s.pcl := rfl
@[simp] theorem setReg_sph (s : State) (r : Reg) (v : Byte) : (s.setReg r v).sph = s.sph := rfl
@[simp] theorem setReg_spl (s : State) (r : Reg) (v : Byte) : (s.setReg r v).spl = s.spl := rfl
@[simp] theorem setReg_ir (s : State) (r : Reg) (v : Byte) : (s.setReg r v).ir = s.ir := rfl
@[simp] theorem setReg_arg1 (s : State) (r : Reg) (v : Byte) : (s.setReg r v).arg1 = s.arg1 := rfl
@[simp] theorem setReg_arg2 (s : State) (r : Reg) (v : Byte) : (s.setReg r v).arg2 = s.arg2 := rfl
@[simp] theorem setReg_phase (s : State) (r : Reg) (v : Byte) : (s.setReg r v).phase = s.phase := rfl
@[simp] theorem setReg_ioPrev (s : State) (r : Reg) (v : Byte) : (s.setReg r v).ioPrev = s.ioPrev := rfl
@[simp] theorem setReg_mem (s : State) (r : Reg) (v : Byte) : (s.setReg r v).mem = s.mem := rfl
@[simp] theorem setReg_faulted (s : State) (r : Reg) (v : Byte) : (s.setReg r v).faulted = s.faulted := rfl
@[simp] theorem setReg_fault (s : State) (r : Reg) (v : Byte) : (s.setReg r v).fault = s.fault := rfl
@[simp] theorem setReg_anomalies (s : State) (r : Reg) (v : Byte) : (s.setReg r v).anomalies = s.anomalies := rfl
@[simp] theorem setReg_ioEvents (s : State) (r : Reg) (v : Byte) : (s.setReg r v).ioEvents = s.ioEvents := rfl
@[simp] theorem setReg_addA (s : State) (r : Reg) (v : Byte) : (s.setReg r v).addA = s.addA := rfl
@[simp] theorem setReg_addB (s : State) (r : Reg) (v : Byte) : (s.setReg r v).addB = s.addB := rfl
@[simp] theorem setReg_pc (s : State) (r : Reg) (v : Byte) : (s.setReg r v).pc = s.pc := rfl
@[simp] theorem setReg_sp (s : State) (r : Reg) (v : Byte) : (s.setReg r v).sp = s.sp := rfl

@[simp] theorem record_regs (s : State) (k : AnomalyKind) (c : Byte) : (s.record k c).regs = s.regs := rfl
@[simp] theorem record_pch (s : State) (k : AnomalyKind) (c : Byte) : (s.record k c).pch = s.pch := rfl
@[simp] theorem record_pcl (s : State) (k : AnomalyKind) (c : Byte) : (s.record k c).pcl = s.pcl := rfl
@[simp] theorem record_sph (s : State) (k : AnomalyKind) (c : Byte) : (s.record k c).sph = s.sph := rfl
@[simp] theorem record_spl (s : State) (k : AnomalyKind) (c : Byte) : (s.record k c).spl = s.spl := rfl
@[simp] theorem record_ir (s : State) (k : AnomalyKind) (c : Byte) : (s.record k c).ir = s.ir := rfl
@[simp] theorem record_arg1 (s : State) (k : AnomalyKind) (c : Byte) : (s.record k c).arg1 = s.arg1 := rfl
@[simp] theorem record_arg2 (s : State) (k : AnomalyKind) (c : Byte) : (s.record k c).arg2 = s.arg2 := rfl
@[simp] theorem record_phase (s : State) (k : AnomalyKind) (c : Byte) : (s.record k c).phase = s.phase := rfl
@[simp] theorem record_ioPrev (s : State) (k : AnomalyKind) (c : Byte) : (s.record k c).ioPrev = s.ioPrev := rfl
@[simp] theorem record_mem (s : State) (k : AnomalyKind) (c : Byte) : (s.record k c).mem = s.mem := rfl
@[simp] theorem record_faulted (s : State) (k : AnomalyKind) (c : Byte) : (s.record k c).faulted = s.faulted := rfl
@[simp] theorem record_fault (s : State) (k : AnomalyKind) (c : Byte) : (s.record k c).fault = s.fault := rfl
@[simp] theorem record_anomalies (s : State) (k : AnomalyKind) (c : Byte) : (s.record k c).anomalies = s.anomalies ++ [⟨k, c, s.pc, s.phase⟩] := rfl
@[simp] theorem record_ioEvents (s : State) (k : AnomalyKind) (c : Byte) : (s.record k c).ioEvents = s.ioEvents := rfl
@[simp] theorem record_addA (s : State) (k : AnomalyKind) (c : Byte) : (s.record k c).addA = s.addA := rfl
@[simp] theorem record_addB (s : State) (k : AnomalyKind) (c : Byte) : (s.record k c).addB = s.addB := rfl
@[simp] theorem record_pc (s : State) (k : AnomalyKind) (c : Byte) : (s.record k c).pc = s.pc := rfl
@[simp] theorem record_sp (s : State) (k : AnomalyKind) (c : Byte) : (s.record k c).sp = s.sp := rfl

@[simp] theorem setByte_regs (s : State) (a : Addr) (v : Byte) : (s.setByte a v).regs = s.regs := rfl
@[simp] theorem setByte_pch (s : State) (a : Addr) (v : Byte) : (s.setByte a v).pch = s.pch := rfl
@[simp] theorem setByte_pcl (s : State) (a : Addr) (v : Byte) : (s.setByte a v).pcl = s.pcl := rfl
@[simp] theorem setByte_sph (s : State) (a : Addr) (v : Byte) : (s.setByte a v).sph = s.sph := rfl
@[simp] theorem setByte_spl (s : State) (a : Addr) (v : Byte) : (s.setByte a v).spl = s.spl := rfl
@[simp] theorem setByte_ir (s : State) (a : Addr) (v : Byte) : (s.setByte a v).ir = s.ir := rfl
@[simp] theorem setByte_arg1 (s : State) (a : Addr) (v : Byte) : (s.setByte a v).arg1 = s.arg1 := rfl
@[simp] theorem setByte_arg2 (s : State) (a : Addr) (v : Byte) : (s.setByte a v).arg2 = s.arg2 := rfl
@[simp] theorem setByte_phase (s : State) (a : Addr) (v : Byte) : (s.setByte a v).phase = s.phase := rfl
@[simp] theorem setByte_ioPrev (s : State) (a : Addr) (v : Byte) : (s.setByte a v).ioPrev = s.ioPrev := rfl
@[simp] theorem setByte_mem (s : State) (a : Addr) (v : Byte) : (s.setByte a v).mem = Memory.write s.mem a.toNat v := rfl
@[simp] theorem setByte_faulted (s : State) (a : Addr) (v : Byte) : (s.setByte a v).faulted = s.faulted := rfl
@[simp] theorem setByte_fault (s : State) (a : Addr) (v : Byte) : (s.setByte a v).fault = s.fault := rfl
@[simp] theorem setByte_anomalies (s : State) (a : Addr) (v : Byte) : (s.setByte a v).anomalies = s.anomalies := rfl
@[simp] theorem setByte_ioEvents (s : State) (a : Addr) (v : Byte) : (s.setByte a v).ioEvents = s.ioEvents := rfl
@[simp] theorem setByte_addA (s : State) (a : Addr) (v : Byte) : (s.setByte a v).addA = s.addA := rfl
@[simp] theorem setByte_addB (s : State) (a : Addr) (v : Byte) : (s.setByte a v).addB = s.addB := rfl
@[simp] theorem setByte_pc (s : State) (a : Addr) (v : Byte) : (s.setByte a v).pc = s.pc := rfl
@[simp] theorem setByte_sp (s : State) (a : Addr) (v : Byte) : (s.setByte a v).sp = s.sp := rfl

@[simp] theorem abort_regs (s : State) (k : Abort) : (s.abort k).regs = s.regs := rfl
@[simp] theorem abort_pch (s : State) (k : Abort) : (s.abort k).pch = s.pch := rfl
@[simp] theorem abort_pcl (s : State) (k : Abort) : (s.abort k).pcl = s.pcl := rfl
@[simp] theorem abort_sph (s : State) (k : Abort) : (s.abort k).sph = s.sph := rfl
@[simp] theorem abort_spl (s : State) (k : Abort) : (s.abort k).spl = s.spl := rfl
@[simp] theorem abort_ir (s : State) (k : Abort) : (s.abort k).ir = s.ir := rfl
@[simp] theorem abort_arg1 (s : State) (k : Abort) : (s.abort k).arg1 = s.arg1 := rfl
@[simp] theorem abort_arg2 (s : State) (k : Abort) : (s.abort k).arg2 = s.arg2 := rfl
@[simp] theorem abort_phase (s : State) (k : Abort) : (s.abort k).phase = s.phase := rfl
@[simp] theorem abort_ioPrev (s : State) (k : Abort) : (s.abort k).ioPrev = s.ioPrev := rfl
@[simp] theorem abort_mem (s : State) (k : Abort) : (s.abort k).mem = s.mem := rfl
@[simp] theorem abort_faulted (s : State) (k : Abort) : (s.abort k).faulted = true := rfl
@[simp] theorem abort_fault (s : State) (k : Abort) : (s.abort k).fault = some k := rfl
@[simp] theorem abort_anomalies (s : State) (k : Abort) : (s.abort k).anomalies = s.anomalies := rfl
@[simp] theorem abort_ioEvents (s : State) (k : Abort) : (s.abort k).ioEvents = s.ioEvents := rfl
@[simp] theorem abort_addA (s : State) (k : Abort) : (s.abort k).addA = s.addA := rfl
@[simp] theorem abort_addB (s : State) (k : Abort) : (s.abort k).addB = s.addB := rfl
@[simp] theorem abort_pc (s : State) (k : Abort) : (s.abort k).pc = s.pc := rfl
@[simp] theorem abort_sp (s : State) (k : Abort) : (s.abort k).sp = s.sp := rfl

@[simp] theorem orF_regs (s : State) (v : Byte) : (s.orF v).regs = s.regs.set .F (s.regs.f ||| v) := rfl
@[simp] theorem orF_pch (s : State) (v : Byte) : (s.orF v).pch = s.pch := rfl
@[simp] theorem orF_pcl (s : State) (v : Byte) : (s.orF v).pcl = s.pcl := rfl
@[simp] theorem orF_sph (s : State) (v : Byte) : (s.orF v).sph = s.sph := rfl
@[simp] theorem orF_spl (s : State) (v : Byte) : (s.orF v).spl = s.spl := rfl
@[simp] theorem orF_ir (s : State) (v : Byte) : (s.orF v).ir = s.ir := rfl
@[simp] theorem orF_arg1 (s : State) (v : Byte) : (s.orF v).arg1 = s.arg1 := rfl
@[simp] theorem orF_arg2 (s : State) (v : Byte) : (s.orF v).arg2 = s.arg2 := rfl
@[simp] theorem orF_phase (s : State) (v : Byte) : (s.orF v).phase = s.phase := rfl
@[simp] theorem orF_ioPrev (s : State) (v : Byte) : (s.orF v).ioPrev = s.ioPrev := rfl
@[simp] theorem orF_mem (s : State) (v : Byte) : (s.orF v).mem = s.mem := rfl
@[simp] theorem orF_faulted (s : State) (v : Byte) : (s.orF v).faulted = s.faulted := rfl
@[simp] theorem orF_fault (s : State) (v : Byte) : (s.orF v).fault = s.fault := rfl
@[simp] theorem orF_anomalies (s : State) (v : Byte) : (s.orF v).anomalies = s.anomalies := rfl
@[simp] theorem orF_ioEvents (s : State) (v : Byte) : (s.orF v).ioEvents = s.ioEvents := rfl
@[simp] theorem orF_addA (s : State) (v : Byte) : (s.orF v).addA = s.addA := rfl
@[simp] theorem orF_addB (s : State) (v : Byte) : (s.orF v).addB = s.addB := rfl
@[simp] theorem orF_pc (s : State) (v : Byte) : (s.orF v).pc = s.pc := rfl
@[simp] theorem orF_sp (s : State) (v : Byte) : (s.orF v).sp = s.sp := rfl

@[simp] theorem advance_regs (s : State) : (s.advance).regs = s.regs := rfl
@[simp] theorem advance_pch (s : State) : (s.advance).pch = hiByte (s.pc + 1) := rfl
@[simp] theorem advance_pcl (s : State) : (s.advance).pcl = loByte (s.pc + 1) := rfl
@[simp] theorem advance_sph (s : State) : (s.advance).sph = s.sph := rfl
@[simp] theorem advance_spl (s : State) : (s.advance).spl = s.spl := rfl
@[simp] theorem advance_ir (s : State) : (s.advance).ir = s.ir := rfl
@[simp] theorem advance_arg1 (s : State) : (s.advance).arg1 = s.arg1 := rfl
@[simp] theorem advance_arg2 (s : State) : (s.advance).arg2 = s.arg2 := rfl
@[simp] theorem advance_phase (s : State) : (s.advance).phase = s.phase := rfl
@[simp] theorem advance_ioPrev (s : State) : (s.advance).ioPrev = s.ioPrev := rfl
@[simp] theorem advance_mem (s : State) : (s.advance).mem = s.mem := rfl
@[simp] theorem advance_faulted (s : State) : (s.advance).faulted = s.faulted := rfl
@[simp] theorem advance_fault (s : State) : (s.advance).fault = s.fault := rfl
@[simp] theorem advance_anomalies (s : State) : (s.advance).anomalies = s.anomalies := rfl
@[simp] theorem advance_ioEvents (s : State) : (s.advance).ioEvents = s.ioEvents := rfl
@[simp] theorem advance_addA (s : State) : (s.advance).addA = s.addA := rfl
@[simp] theorem advance_addB (s : State) : (s.advance).addB = s.addB := rfl
@[simp] theorem advance_sp (s : State) : (s.advance).sp = s.sp := rfl

end Sys2Proof.Machine
end

