-- ==== Sys2Proof/Laws/Ops.lean ====
section
/-! SUPPORT. What each shared operation can do, said once at the default parameters in the words of Safety.lean. -/

namespace Sys2Proof.Machine

theorem regNamed_params (c : Byte) : regNamed Config.params c = namedReg c := by
  revert c
  decide +kernel

@[simp] theorem operandCode_params (b : Byte) : operandCode Config.params b = b := rfl

/-- Adding to the anomaly record. -/
def State.addNotes (s : State) (l : List Anomaly) : State := { s with anomalies := s.anomalies ++ l }

@[simp] theorem addNotes_nil (s : State) : s.addNotes [] = s := by simp [State.addNotes]

@[simp] theorem addNotes_addNotes (s : State) (k l : List Anomaly) : (s.addNotes k).addNotes l = s.addNotes (k ++ l) := by
  simp [State.addNotes, List.append_assoc]

@[simp] theorem addNotes_anomalies (s : State) (l : List Anomaly) : (s.addNotes l).anomalies = s.anomalies ++ l := rfl
@[simp] theorem addNotes_regs (s : State) (l : List Anomaly) : (s.addNotes l).regs = s.regs := rfl
@[simp] theorem addNotes_phase (s : State) (l : List Anomaly) : (s.addNotes l).phase = s.phase := rfl
@[simp] theorem addNotes_mem (s : State) (l : List Anomaly) : (s.addNotes l).mem = s.mem := rfl
@[simp] theorem addNotes_pc (s : State) (l : List Anomaly) : (s.addNotes l).pc = s.pc := rfl
@[simp] theorem addNotes_sp (s : State) (l : List Anomaly) : (s.addNotes l).sp = s.sp := rfl
@[simp] theorem regVal_addNotes (s : State) (l : List Anomaly) (c : Byte) : regVal (s.addNotes l) c = regVal s c := rfl
@[simp] theorem readNote_addNotes (s : State) (l : List Anomaly) (c : Byte) :
    readNote (s.addNotes l) c = readNote s c := rfl
@[simp] theorem writeNote_addNotes (s : State) (l : List Anomaly) (c : Byte) :
    writeNote (s.addNotes l) c = writeNote s c := rfl
@[simp] theorem operandVal_addNotes (s : State) (l : List Anomaly) (o : Operand) :
    operandVal (s.addNotes l) o = operandVal s o := by cases o <;> rfl
@[simp] theorem operandNote_addNotes (s : State) (l : List Anomaly) (o : Operand) :
    operandNote (s.addNotes l) o = operandNote s o := by cases o <;> rfl

/-- The register file after a write to the code `c`. -/
def RegFile.setCode (x : RegFile) (c v : Byte) : RegFile :=
  match namedReg c with
  | some r => x.set r v
  | none => x

theorem RegFile.get_setCode (x : RegFile) (c v : Byte) (q : Reg) :
    (x.setCode c v).get q = if namedReg c = some q then v else x.get q := by
  unfold RegFile.setCode
  cases h : namedReg c with
  | none => simp
  | some r => by_cases e : q = r <;> simp [e, eq_comm]

/-- A register read: the value, and at most one anomaly. -/
theorem readReg_params (c : Byte) (s : State) : readReg Config.params c s = (regVal s c, s.addNotes (readNote s c)) := by
  unfold readReg regVal readNote
  rw [regNamed_params]
  cases namedReg c <;> simp [Config.params, Params.default, State.record, State.addNotes]

/-- A register write: the named register, or one anomaly. -/
theorem writeReg_params (c v : Byte) (s : State) :
    writeReg Config.params c v s = { s with regs := s.regs.setCode c v }.addNotes (writeNote s c) := by
  unfold writeReg writeNote RegFile.setCode
  rw [regNamed_params]
  cases namedReg c <;> simp [State.record, State.addNotes, State.setReg]

theorem readOperandReg_params (c : Byte) (s : State) :
    readOperandReg Config.params c s = (regVal s c, s.addNotes (readNote s c)) := readReg_params c s

theorem writeOperandReg_params (c v : Byte) (s : State) :
    writeOperandReg Config.params c v s = { s with regs := s.regs.setCode c v }.addNotes (writeNote s c) :=
  writeReg_params c v s

theorem readOperand_params (o : Operand) (s : State) :
    readOperand Config.params o s = (operandVal s o, s.addNotes (operandNote s o)) := by
  cases o with
  | reg c => exact readReg_params c s
  | imm i => simp [readOperand, operandVal, operandNote]

/-- The address of LW and SW, and the anomalies of its register form. -/
def addrVal (s : State) : AddrOperand → Addr
  | .regs rh rl => joinBytes (regVal s rh) (regVal s rl)
  | .imm hi lo => joinBytes hi lo

def addrNote (s : State) : AddrOperand → List Anomaly
  | .regs rh rl => readNote s rh ++ readNote s rl
  | .imm _ _ => []

theorem readAddr_params (o : AddrOperand) (s : State) :
    readAddr Config.params o s = (addrVal s o, s.addNotes (addrNote s o)) := by
  cases o with
  | regs rh rl => simp [readAddr, readOperandReg_params, addrVal, addrNote]
  | imm hi lo => simp [readAddr, addrVal, addrNote]

theorem memWrite_rom {p : Params} {a : Addr} (h : a < p.ramBase) (hp : p.romWrite = .abort) (v : Byte) (s : State) :
    memWrite p a v s = .error (s.abort (.romWrite a)) := by
  unfold memWrite
  rw [if_pos h, hp]

theorem memWrite_ram {p : Params} {a : Addr} (h : ¬ a < p.ramBase) (hi : a < p.ioBase) (v : Byte) (s : State) :
    memWrite p a v s = .ok (s.setByte a v) := by
  unfold memWrite
  rw [if_neg h, if_pos hi]

theorem memWrite_io {p : Params} {a : Addr} (h : ¬ a < p.ramBase) (hi : ¬ a < p.ioBase) (v : Byte) (s : State) :
    memWrite p a v s = .ok (ioResponse p a v (s.setByte a v)) := by
  unfold memWrite
  rw [if_neg h, if_neg hi]

theorem ioResponse_spl {p : Params} (h : p.splAddr ≠ p.sphAddr) (v : Byte) (s : State) :
    ioResponse p p.splAddr v s = { s with spl := v } := by
  unfold ioResponse
  rw [if_pos rfl, if_neg h]

theorem ioResponse_sph {p : Params} (h : p.splAddr ≠ p.sphAddr) (v : Byte) (s : State) :
    ioResponse p p.sphAddr v s = { s with sph := v } := by
  unfold ioResponse
  rw [if_neg h.symm, if_pos rfl]

theorem ioResponse_other {p : Params} {a : Addr} (h1 : a ≠ p.splAddr) (h2 : a ≠ p.sphAddr) (v : Byte) (s : State) :
    ioResponse p a v s = s := by
  unfold ioResponse
  rw [if_neg h1, if_neg h2]

theorem mirrored_spl (v : Byte) (sp : Addr) : mirrored 0xFFFE v sp = joinBytes (hiByte sp) v := rfl

theorem mirrored_sph (v : Byte) (sp : Addr) : mirrored 0xFFFF v sp = joinBytes v (loByte sp) := rfl

theorem mirrored_other {a : Addr} (h1 : a ≠ 0xFFFE) (h2 : a ≠ 0xFFFF) (v : Byte) (sp : Addr) : mirrored a v sp = sp := by
  unfold mirrored
  rw [if_neg h1, if_neg h2]

@[simp] theorem setSp_self (s : State) : s.setSp s.sp = s := by
  simp [State.setSp, State.sp]

/-- The I/O response writes the half of SP whose mirror address was written. -/
theorem ioResponse_params (a : Addr) (v : Byte) (s : State) :
    ioResponse Config.params a v s = s.setSp (mirrored a v s.sp) := by
  have e1 : Config.params.splAddr = 0xFFFE := rfl
  have e2 : Config.params.sphAddr = 0xFFFF := rfl
  unfold ioResponse
  rw [e1, e2]
  by_cases h3 : a = 0xFFFE
  · subst h3
    rw [if_pos rfl, if_neg (by decide), mirrored_spl]
    simp [State.setSp, State.sp]
  · rw [if_neg h3]
    by_cases h4 : a = 0xFFFF
    · subst h4
      rw [if_pos rfl, mirrored_sph]
      simp [State.setSp, State.sp]
    · rw [if_neg h4, mirrored_other h3 h4, setSp_self]

/-- A core write: the ROM abort, or the store with the mirror (20_memory.md R54 to R58). -/
theorem memWrite_params (a : Addr) (v : Byte) (s : State) :
    memWrite Config.params a v s =
      if a < 0x8000 then .error (s.abort (.romWrite a))
      else .ok ((s.setByte a v).setSp (mirrored a v s.sp)) := by
  by_cases h1 : a < 0x8000
  · rw [if_pos h1]
    exact memWrite_rom (p := Config.params) h1 rfl v s
  rw [if_neg h1]
  by_cases h2 : a < 0xFF00
  · have h3 : a ≠ 0xFFFE := by rintro rfl; exact absurd h2 (by decide)
    have h4 : a ≠ 0xFFFF := by rintro rfl; exact absurd h2 (by decide)
    refine (memWrite_ram (p := Config.params) h1 h2 v s).trans ?_
    rw [mirrored_other h3 h4, ← setByte_sp s a v, setSp_self]
  · refine (memWrite_io (p := Config.params) h1 h2 v s).trans ?_
    rw [ioResponse_params, setByte_sp]

theorem flagMask_carry : flagMask Config.params.flagBits.carry = 0x01 := rfl

/-- The comparison bits with the default masks. -/
theorem cmpbits_params (a b : Byte) : cmpbits Config.params a b = comparison a b := by
  unfold cmpbits comparison
  rfl

theorem carryIn_params (s : State) : carryIn Config.params s = carryBit s := rfl

/-- ORing the carry of a sum into F. -/
theorem orCarry_params (t : Nat) (s : State) : orCarry Config.params t s = s.orF (carryOf t) := by
  unfold orCarry carryOf
  by_cases h : 255 < t
  · rw [if_pos h, if_pos h]
    rfl
  · rw [if_neg h, if_neg h]
    simp [State.orF, State.setReg, RegFile.set]

@[simp] theorem holdAddends_params (a b : Byte) (s : State) : holdAddends Config.params a b s = s := rfl

theorem pushAddr_params (s : State) : pushAddr Config.params s = s.sp - 1 := rfl

theorem popAddr_params (s : State) : popAddr Config.params s = s.sp := rfl

/-- The push of a byte: SP is decremented before the write and stays so if the write aborts (41_data_movement.md R134). -/
theorem pushByte_params (v : Byte) (s : State) :
    pushByte Config.params v s =
      if s.sp - 1 < 0x8000 then .error ((s.setSp (s.sp - 1)).abort (.romWrite (s.sp - 1)))
      else .ok (((s.setSp (s.sp - 1)).setByte (s.sp - 1) v).setSp (mirrored (s.sp - 1) v (s.sp - 1))) := by
  have e : pushByte Config.params v s = memWrite Config.params (s.sp - 1) v (s.setSp (s.sp - 1)) := rfl
  rw [e, memWrite_params, setSp_sp]

/-- At the default parameters the parametric machine is the machine. -/
theorem execWith_params (i : Instr) (s : State) : execWith Config.params i s = exec i s := by
  cases i <;> rfl

end Sys2Proof.Machine
end

