-- ==== Sys2Proof/Laws/Exec.lean ====
section
/-! SUPPORT. What the shared meanings and the phases can do, said once: the next state of each operation at the default
parameters, and the cases of a step. -/

namespace Sys2Proof.Machine

/-- The state after a write to a register code, with the anomalies of the operands read before it. -/
def State.wrote (s : State) (c v : Byte) (notes : List Anomaly) : State :=
  { s with regs := s.regs.setCode c v }.addNotes (notes ++ writeNote s c)

/-- The end of a phase. -/
def State.at (s : State) (ph : Phase) : State := { s with phase := ph }

theorem endPhase_ok (ph : Phase) (s : State) : endPhase ph (.ok s) = .next (s.at ph) := rfl

theorem endPhase_error (ph : Phase) (s : State) : endPhase ph (.error s) = .next s := rfl

theorem wrote_eq (s : State) (c v : Byte) (notes : List Anomaly) :
    writeReg Config.params c v (s.addNotes notes) = s.wrote c v notes := by
  rw [writeReg_params, State.wrote]
  simp [State.addNotes, List.append_assoc, writeNote, State.pc]

theorem movOp_params (d : Byte) (o : Operand) (s : State) :
    movOp Config.params d o s = .next ((s.wrote d (operandVal s o) (operandNote s o)).at .p0) := by
  simp only [movOp, readOperand_params, writeOperandReg, operandCode_params, wrote_eq, endPhase_ok]

theorem lwOp_params (r : Byte) (o : AddrOperand) (s : State) :
    lwOp Config.params r o s = .next ((s.wrote r (memRead (addrVal s o) s) (addrNote s o)).at .p0) := by
  have e : memRead (addrVal s o) (s.addNotes (addrNote s o)) = memRead (addrVal s o) s := rfl
  simp only [lwOp, readAddr_params, e, wrote_eq, endPhase_ok]

theorem popOp_params (d : Byte) (s : State) :
    popOp Config.params d s = .next (((s.setSp (s.sp + 1)).wrote d (memRead s.sp s) []).at .p0) := by
  have e := wrote_eq (s.setSp (s.sp + 1)) d (memRead s.sp s) []
  rw [addNotes_nil] at e
  simp only [popOp, writeOperandReg, operandCode_params, popAddr_params, e, endPhase_ok]

theorem logicOp_params (g : Byte → Byte → Byte) (d : Byte) (o : Operand) (s : State) :
    logicOp Config.params g d o s =
      .next ((s.wrote d (g (regVal s d) (operandVal s o)) (readNote s d ++ operandNote s o)).at .p0) := by
  simp only [logicOp, readOperandReg_params, readOperand_params, operandVal_addNotes, operandNote_addNotes,
    addNotes_addNotes, writeOperandReg, operandCode_params, wrote_eq, endPhase_ok]

theorem cmpOp_params (a : Byte) (o : Operand) (s : State) :
    cmpOp Config.params a o s =
      .next (((s.addNotes (readNote s a ++ operandNote s o)).setReg .F (comparison (regVal s a) (operandVal s o))).at .p0) := by
  simp only [cmpOp, readOperandReg_params, readOperand_params, operandVal_addNotes, operandNote_addNotes,
    addNotes_addNotes, cmpbits_params, endPhase_ok]

theorem addArith_params (c : Nat) (d : Byte) (o : Operand) (s : State) :
    addArith Config.params c d o s =
      (s.wrote d (BitVec.ofNat 8 ((regVal s d).toNat + (operandVal s o).toNat + c)) (readNote s d ++ operandNote s o)).orF
        (carryOf ((regVal s d).toNat + (operandVal s o).toNat + c)) := by
  simp only [addArith, readOperandReg_params, readOperand_params, operandVal_addNotes, operandNote_addNotes,
    addNotes_addNotes, writeOperandReg, operandCode_params, wrote_eq, orCarry_params, holdAddends_params]

theorem addFlags_params (d : Byte) (o : Operand) (s : State) :
    addFlags Config.params d o s =
      (s.addNotes (readNote s d ++ operandNote s o)).orF (comparison (regVal s d) (operandVal s o)) := by
  have e : Config.params.addCmp = .postWrite := rfl
  simp only [addFlags, e, readOperandReg_params, readOperand_params, operandVal_addNotes, operandNote_addNotes,
    addNotes_addNotes, cmpbits_params]

theorem swOp_params (r : Byte) (o : AddrOperand) (s : State) :
    swOp Config.params r o s =
      endPhase .p0 (memWrite Config.params (addrVal s o) (regVal s r) (s.addNotes (addrNote s o ++ readNote s r))) := by
  simp only [swOp, readAddr_params, readReg_params, regVal_addNotes, readNote_addNotes, addNotes_addNotes]

theorem pushOp_params (o : Operand) (s : State) :
    pushOp Config.params o s =
      endPhase .p0 (pushByte Config.params (operandVal s o) (s.addNotes (operandNote s o))) := by
  simp only [pushOp, readOperand_params]

theorem jnzOp_params (o : Operand) (s : State) :
    jnzOp Config.params o s =
      .next ((if operandVal s o = 0 then s.addNotes (operandNote s o)
        else (s.addNotes (operandNote s o)).setPc (joinBytes s.regs.h s.regs.l)).at .p0) := by
  simp only [jnzOp, readOperand_params, endPhase_ok, jumpTarget, addNotes_regs]

/-- The cases of a step that is no abort of phases 5 and 6. -/
theorem step_cases {s t : State} (h : step s = .next t) :
    (s.faulted = true ∧ t = s) ∨
    (s.faulted = false ∧ s.phase = .p0 ∧ t = fetchOpcode Config.params s) ∨
    (s.faulted = false ∧ s.phase = .p1 ∧ t = fetchArg1 s) ∨
    (s.faulted = false ∧ s.phase = .p2 ∧ needs2 Config.params s.ir = true ∧ t = fetchArg2 s) ∨
    (s.faulted = false ∧ (s.phase = .p5 ∨ s.phase = .p6) ∧ t = s.abort (.badPhase s.phase)) ∨
    (∃ i, Executes s i ∧ exec i s = .next t) := by
  have hx : ∀ {s t : State}, s.faulted = false → executePhase Config.params exec s = .next t →
      ∃ i, Executes s i ∧ exec i s = .next t := by
    intro s t hf h
    unfold executePhase at h
    cases hi : fetchedInstr Config.params s with
    | none => rw [hi] at h; cases h
    | some i =>
      rw [hi] at h
      dsimp only at h
      split at h
      · next he => exact ⟨i, ⟨hf, hi, he⟩, h⟩
      · cases h
  unfold step runPhase at h
  cases hf : s.faulted with
  | true => rw [hf] at h; cases h; exact .inl ⟨rfl, rfl⟩
  | false =>
    rw [hf] at h
    simp only [Bool.false_eq_true, if_false] at h
    right
    cases hp : s.phase <;> rw [hp] at h <;> dsimp only at h
    · cases h; exact .inl ⟨rfl, rfl, rfl⟩
    · cases h; exact .inr (.inl ⟨rfl, rfl, rfl⟩)
    · split at h
      · next hn => cases h; exact .inr (.inr (.inl ⟨rfl, rfl, hn, rfl⟩))
      · exact .inr (.inr (.inr (.inr (hx hf h))))
    · exact .inr (.inr (.inr (.inr (hx hf h))))
    · exact .inr (.inr (.inr (.inr (hx hf h))))
    · cases h; exact .inr (.inr (.inr (.inl ⟨rfl, .inl rfl, rfl⟩)))
    · cases h; exact .inr (.inr (.inr (.inl ⟨rfl, .inr rfl, rfl⟩)))

/-- Anomalies that the accesses of one phase at `s` may record. -/
def NotesOf (s : State) (l : List Anomaly) : Prop := ∀ x ∈ l, namedReg x.code = none ∧ x.pc = s.pc ∧ x.phase = s.phase

theorem readNote_notes (s : State) (c : Byte) : NotesOf s (readNote s c) ∧ (readNote s c).length ≤ 1 := by
  unfold readNote NotesOf
  split
  · next h => simp [h]
  · simp

theorem writeNote_notes (s : State) (c : Byte) : NotesOf s (writeNote s c) ∧ (writeNote s c).length ≤ 1 := by
  unfold writeNote NotesOf
  split
  · next h => simp [h]
  · simp

theorem operandNote_notes (s : State) (o : Operand) : NotesOf s (operandNote s o) ∧ (operandNote s o).length ≤ 1 := by
  cases o with
  | reg c => exact readNote_notes s c
  | imm i => simp [operandNote, NotesOf]

theorem NotesOf.append {s : State} {k l : List Anomaly} (hk : NotesOf s k) (hl : NotesOf s l) : NotesOf s (k ++ l) := by
  intro x hx
  rcases List.mem_append.1 hx with h | h
  · exact hk x h
  · exact hl x h

theorem addrNote_notes (s : State) (o : AddrOperand) : NotesOf s (addrNote s o) ∧ (addrNote s o).length ≤ 2 := by
  cases o with
  | regs rh rl =>
    have h1 := readNote_notes s rh
    have h2 := readNote_notes s rl
    refine ⟨h1.1.append h2.1, ?_⟩
    simp only [addrNote, List.length_append]
    omega
  | imm hi lo => simp [addrNote, NotesOf]

/-- What an execute phase can do, said once: the shapes of its next state. -/
inductive ExecForm (i : Instr) (s : State) : State → Prop
  /-- MOV, LW, AND, NOR: a register write. -/
  | wrote (c v : Byte) (n : List Anomaly) : destCode i = some c → NotesOf s n → n.length ≤ 2 →
      ExecForm i s ((s.wrote c v n).at .p0)
  /-- POP. -/
  | popped (d : Byte) : i = .popD d →
      ExecForm i s (((s.setSp (s.sp + 1)).wrote d (memRead s.sp s) []).at .p0)
  /-- Phase 3 of ADD and ADC. -/
  | summed (c v w : Byte) (n : List Anomaly) : destCode i = some c → hasFlagPhase i.opcode.prim = true →
      NotesOf s n → n.length ≤ 2 → ExecForm i s (((s.wrote c v n).orF w).at .p4)
  /-- Phase 4 of ADD and ADC. -/
  | compared (w : Byte) (n : List Anomaly) : hasFlagPhase i.opcode.prim = true → NotesOf s n → n.length ≤ 2 →
      ExecForm i s (((s.addNotes n).orF w).at .p0)
  /-- CMP. -/
  | flagged (w : Byte) (n : List Anomaly) : i.opcode.prim = .cmp → NotesOf s n → n.length ≤ 2 →
      ExecForm i s (((s.addNotes n).setReg .F w).at .p0)
  /-- LDA. -/
  | pointed (hi lo : Byte) : i = .lda hi lo → ExecForm i s (((s.setReg .H hi).setReg .L lo).at .p0)
  /-- SW outside ROM. -/
  | stored (r : Byte) (o : AddrOperand) (n : List Anomaly) :
      (∃ h l, i = .swMR r h l ∧ o = .regs h l) ∨ (∃ h l, i = .swMI r h l ∧ o = .imm h l) →
      NotesOf s n → n.length ≤ 3 → ¬ addrVal s o < 0x8000 →
      ExecForm i s ((((s.addNotes n).setByte (addrVal s o) (regVal s r)).setSp
        (mirrored (addrVal s o) (regVal s r) s.sp)).at .p0)
  /-- SW into ROM. -/
  | storeAborted (r : Byte) (o : AddrOperand) (n : List Anomaly) : NotesOf s n → n.length ≤ 3 → addrVal s o < 0x8000 →
      i.opcode.prim = .sw → ExecForm i s ((s.addNotes n).abort (.romWrite (addrVal s o)))
  /-- PUSH outside ROM. -/
  | pushed (o : Operand) (n : List Anomaly) :
      (∃ b, i = .pushSR b ∧ o = .reg b) ∨ (∃ b, i = .pushSI b ∧ o = .imm b) → NotesOf s n → n.length ≤ 2 →
      ¬ s.sp - 1 < 0x8000 →
      ExecForm i s (((((s.addNotes n).setSp (s.sp - 1)).setByte (s.sp - 1) (operandVal s o)).setSp
        (mirrored (s.sp - 1) (operandVal s o) (s.sp - 1))).at .p0)
  /-- PUSH into ROM. -/
  | pushAborted (o : Operand) (n : List Anomaly) :
      (∃ b, i = .pushSR b ∧ o = .reg b) ∨ (∃ b, i = .pushSI b ∧ o = .imm b) → NotesOf s n → n.length ≤ 2 →
      s.sp - 1 < 0x8000 →
      ExecForm i s (((s.addNotes n).setSp (s.sp - 1)).abort (.romWrite (s.sp - 1)))
  /-- JNZ not taken. -/
  | fellThrough (n : List Anomaly) : i.opcode.prim = .jnz → NotesOf s n → n.length ≤ 2 →
      ExecForm i s ((s.addNotes n).at .p0)
  /-- JNZ taken. -/
  | jumped (n : List Anomaly) :
      (∃ b, i = .jnzSR b ∧ regVal s b ≠ 0) ∨ (∃ b, i = .jnzSI b ∧ b ≠ 0) → NotesOf s n → n.length ≤ 2 →
      ExecForm i s (((s.addNotes n).setPc (joinBytes s.regs.h s.regs.l)).at .p0)

/-- Every execute phase answers a next state, of one of those shapes. -/
theorem exec_form (i : Instr) (s : State) : ∃ t, exec i s = .next t ∧ ExecForm i s t := by
  have two : ∀ (d : Byte) (o : Operand), NotesOf s (readNote s d ++ operandNote s o) ∧
      (readNote s d ++ operandNote s o).length ≤ 2 := by
    intro d o
    have h1 := readNote_notes s d
    have h2 := operandNote_notes s o
    exact ⟨h1.1.append h2.1, by rw [List.length_append]; omega⟩
  have one : ∀ o : Operand, NotesOf s (operandNote s o) ∧ (operandNote s o).length ≤ 2 := by
    intro o
    have h := operandNote_notes s o
    exact ⟨h.1, by omega⟩
  have sum : ∀ (c : Nat) (d : Byte) (o : Operand), destCode i = some d → hasFlagPhase i.opcode.prim = true →
      ∃ t, endPhase .p4 (.ok (addArith Config.params c d o s)) = .next t ∧ ExecForm i s t := by
    intro c d o hd hf
    rw [addArith_params]
    exact ⟨_, rfl, .summed d _ _ _ hd hf (two d o).1 (two d o).2⟩
  have flag : ∀ (d : Byte) (o : Operand), hasFlagPhase i.opcode.prim = true →
      ∃ t, endPhase .p0 (.ok (addFlags Config.params d o s)) = .next t ∧ ExecForm i s t := by
    intro d o hf
    rw [addFlags_params]
    exact ⟨_, rfl, .compared _ _ hf (two d o).1 (two d o).2⟩
  have add : ∀ (d : Byte) (o : Operand), destCode i = some d → hasFlagPhase i.opcode.prim = true →
      ∃ t, addOp Config.params d o s = .next t ∧ ExecForm i s t := by
    intro d o hd hf
    unfold addOp
    split
    · exact flag d o hf
    · exact sum _ d o hd hf
  have adc : ∀ (d : Byte) (o : Operand), destCode i = some d → hasFlagPhase i.opcode.prim = true →
      ∃ t, adcOp Config.params d o s = .next t ∧ ExecForm i s t := by
    intro d o hd hf
    unfold adcOp
    split
    · exact flag d o hf
    · exact sum _ d o hd hf
  have logic : ∀ (g : Byte → Byte → Byte) (d : Byte) (o : Operand), destCode i = some d →
      ∃ t, logicOp Config.params g d o s = .next t ∧ ExecForm i s t := fun g d o hd =>
    ⟨_, logicOp_params g d o s, .wrote d _ _ hd (two d o).1 (two d o).2⟩
  have cmp : ∀ (a : Byte) (o : Operand), i.opcode.prim = .cmp →
      ∃ t, cmpOp Config.params a o s = .next t ∧ ExecForm i s t := fun a o hc =>
    ⟨_, cmpOp_params a o s, .flagged _ _ hc (two a o).1 (two a o).2⟩
  have mov : ∀ (d : Byte) (o : Operand), destCode i = some d →
      ∃ t, movOp Config.params d o s = .next t ∧ ExecForm i s t := fun d o hd =>
    ⟨_, movOp_params d o s, .wrote d _ _ hd (one o).1 (one o).2⟩
  have lw : ∀ (r : Byte) (o : AddrOperand), destCode i = some r →
      ∃ t, lwOp Config.params r o s = .next t ∧ ExecForm i s t := fun r o hd =>
    ⟨_, lwOp_params r o s, .wrote r _ _ hd (addrNote_notes s o).1 (addrNote_notes s o).2⟩
  have sw : ∀ (r : Byte) (o : AddrOperand), i.opcode.prim = .sw →
      (∃ h l, i = .swMR r h l ∧ o = .regs h l) ∨ (∃ h l, i = .swMI r h l ∧ o = .imm h l) →
      ∃ t, swOp Config.params r o s = .next t ∧ ExecForm i s t := by
    intro r o hp hi
    have h1 := addrNote_notes s o
    have h2 := readNote_notes s r
    have hn : NotesOf s (addrNote s o ++ readNote s r) := h1.1.append h2.1
    have hl : (addrNote s o ++ readNote s r).length ≤ 3 := by rw [List.length_append]; omega
    rw [swOp_params, memWrite_params]
    by_cases ha : addrVal s o < 0x8000
    · rw [if_pos ha]
      exact ⟨_, rfl, .storeAborted r o _ hn hl ha hp⟩
    · rw [if_neg ha]
      exact ⟨_, rfl, .stored r o _ hi hn hl ha⟩
  have push : ∀ o : Operand, (∃ b, i = .pushSR b ∧ o = .reg b) ∨ (∃ b, i = .pushSI b ∧ o = .imm b) →
      ∃ t, pushOp Config.params o s = .next t ∧ ExecForm i s t := by
    intro o hi
    rw [pushOp_params, pushByte_params, addNotes_sp]
    by_cases ha : s.sp - 1 < 0x8000
    · rw [if_pos ha]
      exact ⟨_, rfl, .pushAborted o _ hi (one o).1 (one o).2 ha⟩
    · rw [if_neg ha]
      exact ⟨_, rfl, .pushed o _ hi (one o).1 (one o).2 ha⟩
  have jnz : ∀ o : Operand, i.opcode.prim = .jnz →
      (operandVal s o ≠ 0 → (∃ b, i = .jnzSR b ∧ regVal s b ≠ 0) ∨ (∃ b, i = .jnzSI b ∧ b ≠ 0)) →
      ∃ t, jnzOp Config.params o s = .next t ∧ ExecForm i s t := by
    intro o hp hi
    rw [jnzOp_params]
    by_cases hv : operandVal s o = 0
    · rw [if_pos hv]
      exact ⟨_, rfl, .fellThrough _ hp (one o).1 (one o).2⟩
    · rw [if_neg hv]
      exact ⟨_, rfl, .jumped _ (hi hv) (one o).1 (one o).2⟩
  cases i with
  | movRR d r => exact mov d (.reg r) rfl
  | movRI d b => exact mov d (.imm b) rfl
  | addRR d r => exact add d (.reg r) rfl rfl
  | addRI d b => exact add d (.imm b) rfl rfl
  | adcRR d r => exact adc d (.reg r) rfl rfl
  | adcRI d b => exact adc d (.imm b) rfl rfl
  | andRR d r => exact logic _ d (.reg r) rfl
  | andRI d b => exact logic _ d (.imm b) rfl
  | norRR d r => exact logic (fun a b => ~~~(a ||| b)) d (.reg r) rfl
  | norRI d b => exact logic (fun a b => ~~~(a ||| b)) d (.imm b) rfl
  | cmpRR a r => exact cmp a (.reg r) rfl
  | cmpRI a b => exact cmp a (.imm b) rfl
  | lwMR r h l => exact lw r (.regs h l) rfl
  | lwMI r h l => exact lw r (.imm h l) rfl
  | swMR r h l => exact sw r (.regs h l) rfl (.inl ⟨h, l, rfl, rfl⟩)
  | swMI r h l => exact sw r (.imm h l) rfl (.inr ⟨h, l, rfl, rfl⟩)
  | lda hi lo => exact ⟨_, rfl, .pointed hi lo rfl⟩
  | pushSR r => exact push (.reg r) (.inl ⟨r, rfl, rfl⟩)
  | pushSI b => exact push (.imm b) (.inr ⟨b, rfl, rfl⟩)
  | popD d => exact ⟨_, popOp_params d s, .popped d rfl⟩
  | jnzSR r => exact jnz (.reg r) rfl (fun h => .inl ⟨r, rfl, h⟩)
  | jnzSI b => exact jnz (.imm b) rfl (fun h => .inr ⟨b, rfl, h⟩)

theorem exec_form_of_next {i : Instr} {s t : State} (h : exec i s = .next t) : ExecForm i s t := by
  obtain ⟨u, e, f⟩ := exec_form i s
  rw [h] at e
  cases e
  exact f

end Sys2Proof.Machine
end

