-- ==== Sys2Proof/Laws/Fetch.lean ====
section
/-! SUPPORT. What the fetch phases and the two halves of ADD and ADC can do, said once at the default parameters. -/

namespace Sys2Proof.Machine

/-- The values of the I/O events that a phase 0 signals. -/
def eventsAt (s : State) : List Byte := if memRead 0xFF00 s = s.ioPrev then [] else [memRead 0xFF00 s]

/-- The I/O event check (40_cycle.md R111). -/
theorem ioCheck_params (s : State) :
    ioCheck Config.params s = { s with ioPrev := memRead 0xFF00 s, ioEvents := s.ioEvents ++ eventsAt s } := by
  have e : Config.params.ioBase = 0xFF00 := rfl
  unfold ioCheck eventsAt
  rw [e]
  by_cases h : memRead 0xFF00 s = s.ioPrev
  · simp only [if_pos h, List.append_nil]
    rw [h]
  · simp only [if_neg h]

/-- The state with its opcode fetched, but for how the phase ends. -/
def State.opcodeFetched (s : State) : State :=
  { s with
    ioPrev := memRead 0xFF00 s
    ioEvents := s.ioEvents ++ eventsAt s
    ir := memRead s.pc s
    pch := hiByte (s.pc + 1)
    pcl := loByte (s.pc + 1) }

@[simp] theorem opcodeFetched_pc (s : State) : s.opcodeFetched.pc = s.pc + 1 := joinBytes_hi_lo _

/-- Phase 0: the fetched state goes to phase 1, or aborts on an undefined opcode. -/
theorem fetchOpcode_params (s : State) :
    fetchOpcode Config.params s =
      match decodeOpcode Config.params (memRead s.pc s) with
      | .ok _ => s.opcodeFetched.at .p1
      | .error _ => s.opcodeFetched.abort (.undefinedOpcode s.pc (memRead s.pc s)) := by
  unfold fetchOpcode
  rw [ioCheck_params]
  rfl

@[simp] theorem fetchArg1_pc (s : State) : (fetchArg1 s).pc = s.pc + 1 := joinBytes_hi_lo _

@[simp] theorem fetchArg2_pc (s : State) : (fetchArg2 s).pc = s.pc + 1 := joinBytes_hi_lo _

/-- The instruction in IR, ARG1 and ARG2 has the primitive that IR says. -/
theorem fetchedInstr_prim {s : State} {i : Instr} (h : fetchedInstr Config.params s = some i) :
    ∃ o, decodeOpcode Config.params s.ir = .ok o ∧ i.opcode.prim = o.prim := by
  unfold fetchedInstr at h
  rw [decode_cons] at h
  cases hd : decodeOpcode Config.params s.ir with
  | error e => rw [hd] at h; cases h
  | ok o =>
    refine ⟨o, rfl, ?_⟩
    rw [hd] at h
    obtain ⟨prim, imm, reg⟩ := o
    clear hd
    dsimp only at h
    cases prim <;> cases imm <;> simp [Primitive.length, Opcode.instr] at h <;> subst h <;> rfl

/-- An execute phase changes none of IR, ARG1, ARG2, io_prev, the I/O events and the held operands. -/
theorem ExecForm.hidden {i : Instr} {s t : State} (h : ExecForm i s t) : SameHidden s t := by
  cases h <;> exact ⟨rfl, rfl, rfl, rfl, rfl, rfl, rfl⟩

/-- No execute phase is phase 0 or 1. -/
theorem Executes.phase_ne {s : State} {i : Instr} (h : Executes s i) : s.phase ≠ .p0 ∧ s.phase ≠ .p1 := by
  refine ⟨fun e => ?_, fun e => ?_⟩ <;> (have := h.2.2; rw [e] at this; cases this)

theorem orF_get (s : State) (w : Byte) (r : Reg) :
    (s.orF w).regs.get r = if r = .F then s.regs.f ||| w else s.regs.get r := by
  rw [orF_regs, RegFile.get_set]

theorem wrote_get (s : State) (c v : Byte) (notes : List Anomaly) (r : Reg) :
    (s.wrote c v notes).regs.get r = if namedReg c = some r then v else s.regs.get r := RegFile.get_setCode _ _ _ _

/-- One more step after `k` steps. -/
theorem runFor_succ {k : Nat} {s t : State} (h : runFor k s = .next t) : runFor (k + 1) s = step t := by
  induction k generalizing s with
  | zero =>
    cases h
    rw [runFor]
    generalize step t = q
    cases q <;> rfl
  | succ k ih =>
    rw [runFor] at h ⊢
    cases hs : step s with
    | next u => rw [hs] at h; exact ih h
    | fault r => rw [hs] at h; cases h
    | refused r => rw [hs] at h; cases h

end Sys2Proof.Machine
end

