-- ==== Sys2Proof/Laws/HostPort.lean ====
section
/-! SUPPORT. What the host's moves and the end of a run can do, said once. -/

namespace Sys2Proof.Machine

/-- A host write that is a move stores its byte, and not at a mirror address (20_memory.md R73). -/
theorem hostWrite_eq_some {p : Params} {a : Addr} {v : Byte} {s t : State} (h : hostWrite p a v s = some t) :
    t = s.setByte a v ∧ a ≠ p.splAddr ∧ a ≠ p.sphAddr := by
  unfold hostWrite at h
  split at h
  · cases h
  · next hn =>
    cases h
    exact ⟨rfl, fun e => hn (.inl e), fun e => hn (.inr e)⟩

/-- The writes after the first byte of an image go on from its store. -/
theorem hostWriteAll_cons {p : Params} {a : Addr} {v : Byte} {vs : List Byte} {s t : State}
    (h : hostWriteAll p a (v :: vs) s = some t) :
    a ≠ p.splAddr ∧ a ≠ p.sphAddr ∧ hostWriteAll p (a + 1) vs (s.setByte a v) = some t := by
  rw [hostWriteAll] at h
  cases hw : hostWrite p a v s with
  | none => rw [hw] at h; cases h
  | some u =>
    rw [hw] at h
    obtain ⟨rfl, h1, h2⟩ := hostWrite_eq_some hw
    exact ⟨h1, h2, h⟩

@[simp] theorem hostReadout_setByte (s : State) (a : Addr) (v : Byte) :
    hostReadout (s.setByte a v) = hostReadout s := rfl

/-- A state at the end address is the end of the run from it. -/
theorem endOfRun_of_atEnd {e : Addr} {s : State} (h : s.atEnd e) (n : Nat) : endOfRun e n s = some s := by
  cases n <;> exact if_pos h

theorem endOfRun_zero_of_not_atEnd {e : Addr} {s : State} (h : ¬ s.atEnd e) : endOfRun e 0 s = none := if_neg h

/-- A run that is not at its end goes on with the next step. -/
theorem endOfRun_succ_of_next {e : Addr} {s t : State} (h : ¬ s.atEnd e) (hs : step s = .next t) (n : Nat) :
    endOfRun e (n + 1) s = endOfRun e n t := by
  rw [endOfRun, if_neg h, hs]

end Sys2Proof.Machine
end

