-- ==== Sys2Proof/Laws/PerInstr.lean ====
section
/-! SUPPORT. Statements for all instructions, one lemma per constructor. -/

namespace Sys2Proof.Laws.EncodeLength

/-- The encoding has the length of the instruction (30_encoding.md R90), whatever the parameter values. -/
def Statement (i : Instr) : Prop := ∀ p : Params, (encode p i).length = i.length

theorem movRR (d s : Byte) : Statement (.movRR d s) := fun _ => rfl
theorem movRI (d i : Byte) : Statement (.movRI d i) := fun _ => rfl
theorem addRR (d s : Byte) : Statement (.addRR d s) := fun _ => rfl
theorem addRI (d i : Byte) : Statement (.addRI d i) := fun _ => rfl
theorem adcRR (d s : Byte) : Statement (.adcRR d s) := fun _ => rfl
theorem adcRI (d i : Byte) : Statement (.adcRI d i) := fun _ => rfl
theorem andRR (d s : Byte) : Statement (.andRR d s) := fun _ => rfl
theorem andRI (d i : Byte) : Statement (.andRI d i) := fun _ => rfl
theorem norRR (d s : Byte) : Statement (.norRR d s) := fun _ => rfl
theorem norRI (d i : Byte) : Statement (.norRI d i) := fun _ => rfl
theorem cmpRR (a s : Byte) : Statement (.cmpRR a s) := fun _ => rfl
theorem cmpRI (a i : Byte) : Statement (.cmpRI a i) := fun _ => rfl
theorem lwMR (r rh rl : Byte) : Statement (.lwMR r rh rl) := fun _ => rfl
theorem lwMI (r hi lo : Byte) : Statement (.lwMI r hi lo) := fun _ => rfl
theorem swMR (r rh rl : Byte) : Statement (.swMR r rh rl) := fun _ => rfl
theorem swMI (r hi lo : Byte) : Statement (.swMI r hi lo) := fun _ => rfl
theorem lda (hi lo : Byte) : Statement (.lda hi lo) := fun _ => rfl
theorem pushSR (r : Byte) : Statement (.pushSR r) := fun _ => rfl
theorem pushSI (i : Byte) : Statement (.pushSI i) := fun _ => rfl
theorem popD (d : Byte) : Statement (.popD d) := fun _ => rfl
theorem jnzSR (r : Byte) : Statement (.jnzSR r) := fun _ => rfl
theorem jnzSI (i : Byte) : Statement (.jnzSI i) := fun _ => rfl

end Sys2Proof.Laws.EncodeLength
end

