-- ==== Sys2Proof/Laws/Pseudo.lean ====
section
/-! SUPPORT. The bytes of the instructions without a register field, and the register bytes and masks of the expansions, at
the default parameters. -/

namespace Sys2Proof.Machine

@[simp] theorem encode_movRR (d s : Byte) : encode Config.params (.movRR d s) = [0x01, d, s] :=
  congrArg (fun b => [b, d, s]) (show encodeOpcode Config.params ⟨.mov, false, 0⟩ = 0x01 by decide)
@[simp] theorem encode_movRI (d i : Byte) : encode Config.params (.movRI d i) = [0x81, d, i] :=
  congrArg (fun b => [b, d, i]) (show encodeOpcode Config.params ⟨.mov, true, 0⟩ = 0x81 by decide)
@[simp] theorem encode_addRR (d s : Byte) : encode Config.params (.addRR d s) = [0x08, d, s] :=
  congrArg (fun b => [b, d, s]) (show encodeOpcode Config.params ⟨.add, false, 0⟩ = 0x08 by decide)
@[simp] theorem encode_addRI (d i : Byte) : encode Config.params (.addRI d i) = [0x88, d, i] :=
  congrArg (fun b => [b, d, i]) (show encodeOpcode Config.params ⟨.add, true, 0⟩ = 0x88 by decide)
@[simp] theorem encode_adcRR (d s : Byte) : encode Config.params (.adcRR d s) = [0x09, d, s] :=
  congrArg (fun b => [b, d, s]) (show encodeOpcode Config.params ⟨.adc, false, 0⟩ = 0x09 by decide)
@[simp] theorem encode_adcRI (d i : Byte) : encode Config.params (.adcRI d i) = [0x89, d, i] :=
  congrArg (fun b => [b, d, i]) (show encodeOpcode Config.params ⟨.adc, true, 0⟩ = 0x89 by decide)
@[simp] theorem encode_andRR (d s : Byte) : encode Config.params (.andRR d s) = [0x0A, d, s] :=
  congrArg (fun b => [b, d, s]) (show encodeOpcode Config.params ⟨.and, false, 0⟩ = 0x0A by decide)
@[simp] theorem encode_andRI (d i : Byte) : encode Config.params (.andRI d i) = [0x8A, d, i] :=
  congrArg (fun b => [b, d, i]) (show encodeOpcode Config.params ⟨.and, true, 0⟩ = 0x8A by decide)
@[simp] theorem encode_norRR (d s : Byte) : encode Config.params (.norRR d s) = [0x0B, d, s] :=
  congrArg (fun b => [b, d, s]) (show encodeOpcode Config.params ⟨.nor, false, 0⟩ = 0x0B by decide)
@[simp] theorem encode_norRI (d i : Byte) : encode Config.params (.norRI d i) = [0x8B, d, i] :=
  congrArg (fun b => [b, d, i]) (show encodeOpcode Config.params ⟨.nor, true, 0⟩ = 0x8B by decide)
@[simp] theorem encode_cmpRR (a s : Byte) : encode Config.params (.cmpRR a s) = [0x0C, a, s] :=
  congrArg (fun b => [b, a, s]) (show encodeOpcode Config.params ⟨.cmp, false, 0⟩ = 0x0C by decide)
@[simp] theorem encode_cmpRI (a i : Byte) : encode Config.params (.cmpRI a i) = [0x8C, a, i] :=
  congrArg (fun b => [b, a, i]) (show encodeOpcode Config.params ⟨.cmp, true, 0⟩ = 0x8C by decide)
@[simp] theorem encode_lda (hi lo : Byte) : encode Config.params (.lda hi lo) = [0x84, hi, lo] :=
  congrArg (fun b => [b, hi, lo]) (show encodeOpcode Config.params ⟨.lda, true, 0⟩ = 0x84 by decide)
@[simp] theorem encode_pushSR (r : Byte) : encode Config.params (.pushSR r) = [0x05, r] :=
  congrArg (fun b => [b, r]) (show encodeOpcode Config.params ⟨.push, false, 0⟩ = 0x05 by decide)
@[simp] theorem encode_pushSI (i : Byte) : encode Config.params (.pushSI i) = [0x85, i] :=
  congrArg (fun b => [b, i]) (show encodeOpcode Config.params ⟨.push, true, 0⟩ = 0x85 by decide)
@[simp] theorem encode_popD (d : Byte) : encode Config.params (.popD d) = [0x06, d] :=
  congrArg (fun b => [b, d]) (show encodeOpcode Config.params ⟨.pop, false, 0⟩ = 0x06 by decide)
@[simp] theorem encode_jnzSR (r : Byte) : encode Config.params (.jnzSR r) = [0x07, r] :=
  congrArg (fun b => [b, r]) (show encodeOpcode Config.params ⟨.jnz, false, 0⟩ = 0x07 by decide)
@[simp] theorem encode_jnzSI (i : Byte) : encode Config.params (.jnzSI i) = [0x87, i] :=
  congrArg (fun b => [b, i]) (show encodeOpcode Config.params ⟨.jnz, true, 0⟩ = 0x87 by decide)

@[simp] theorem regByte_A : regByte Config.params .A = 0x00 := rfl
@[simp] theorem regByte_L : regByte Config.params .L = 0x04 := rfl
@[simp] theorem regByte_H : regByte Config.params .H = 0x05 := rfl
@[simp] theorem regByte_F : regByte Config.params .F = 0x06 := rfl

@[simp] theorem carryMask_params : carryMask Config.params = 0x01 := rfl
@[simp] theorem relationMask_gt : relationMask Config.params .gt = 0x02 := rfl
@[simp] theorem relationMask_lt : relationMask Config.params .lt = 0x08 := rfl
@[simp] theorem relationMask_eq : relationMask Config.params .eq = 0x04 := rfl

/-- The pair form of JMP is rejected when the low byte stands in `H` (44_pseudo.md R182). -/
theorem expand_jmp_pair (p : Params) (rh rl : Byte) :
    (Pseudo.jmp (.pair rh rl)).expand p =
      if rl = regByte p .H then none else some (loadTarget p (.pair rh rl) ++ [.jnzSI 1]) := rfl

/-- XOR and XNOR would lose an operand in `L`, and only there (44_pseudo.md R187). -/
@[simp] theorem usesScratch_reg (d s : Byte) :
    usesScratch Config.params d (.reg s) = true ↔ d = 0x04 ∨ s = 0x04 := by
  simp [usesScratch]

@[simp] theorem usesScratch_imm (d i : Byte) : usesScratch Config.params d (.imm i) = true ↔ d = 0x04 := by
  simp [usesScratch]

end Sys2Proof.Machine
end

