-- ==== Sys2Proof/Tests/Slice0.lean ====
section
/-! SUPPORT. Tests. Expected results are those of 30_encoding.md, 95_test_vectors.md and the rules named; the witnesses show
that the hypotheses of the statements can be met. -/

namespace Sys2Proof.Tests

open Sys2Proof Sys2Proof.Machine

/-! Well-formedness -/

theorem test_wf_refuses_lwMR : (Instr.lwMR 8 0 0).wf = false := by decide
theorem test_wf_refuses_lwMI : (Instr.lwMI 8 0x80 0x10).wf = false := by decide
theorem test_wf_refuses_swMR : (Instr.swMR 0xFF 5 4).wf = false := by decide
theorem test_wf_refuses_swMI : (Instr.swMI 8 0x90 0x00).wf = false := by decide
theorem test_wf_accepts_invalid_code : (Instr.swMI 7 0x90 0x00).wf = true := by decide
theorem test_wf_default : Params.default.wf = true := by decide
theorem test_wf_refuses_opcodes :
    { Params.default with opcode := { Params.default.opcode with lw := 0x1 } }.wfOpcodes = false := by decide
theorem test_wf_refuses_codes :
    { Params.default with regCode := { Params.default.regCode with f := 0 } }.wfRegCodes = false := by decide
theorem test_wf_refuses_flags :
    { Params.default with flagBits := { Params.default.flagBits with less := 0 } }.wfFlags = false := by decide
theorem test_wf_refuses_same_mirrors : { Params.default with splAddr := 0xFFFF }.wfMap = false := by decide
theorem test_wf_refuses_mirror_in_ram : { Params.default with sphAddr := 0x9000 }.wfMap = false := by decide
theorem test_wf_refuses_regions : { Params.default with ramBase := 0xFF00 }.wfMap = false := by decide

/-! Decoding: words written out from the rows of 30_encoding.md R88, opcode byte least significant -/

theorem test_decode_movRR : decodeTableWord 24 0x020101 = some (.movRR 1 2) := by decide
theorem test_decode_movRI : decodeTableWord 24 0xFF0681 = some (.movRI 6 0xFF) := by decide
theorem test_decode_addRR : decodeTableWord 24 0x010008 = some (.addRR 0 1) := by decide
theorem test_decode_addRI : decodeTableWord 24 0x010088 = some (.addRI 0 1) := by decide
theorem test_decode_adcRR : decodeTableWord 24 0x010009 = some (.adcRR 0 1) := by decide
theorem test_decode_adcRI : decodeTableWord 24 0xFC0089 = some (.adcRI 0 0xFC) := by decide
theorem test_decode_andRR : decodeTableWord 24 0x01000A = some (.andRR 0 1) := by decide
theorem test_decode_andRI : decodeTableWord 24 0x3C008A = some (.andRI 0 0x3C) := by decide
theorem test_decode_norRR : decodeTableWord 24 0x04000B = some (.norRR 0 4) := by decide
theorem test_decode_norRI : decodeTableWord 24 0xFF008B = some (.norRI 0 0xFF) := by decide
theorem test_decode_cmpRR : decodeTableWord 24 0x07000C = some (.cmpRR 0 7) := by decide
theorem test_decode_cmpRI : decodeTableWord 24 0x20018C = some (.cmpRI 1 0x20) := by decide
theorem test_decode_lwMR : decodeTableWord 24 0x040512 = some (.lwMR 1 5 4) := by decide
theorem test_decode_lwMI : decodeTableWord 24 0x1080A2 = some (.lwMI 2 0x80 0x10) := by decide
theorem test_decode_swMR : decodeTableWord 24 0x040513 = some (.swMR 1 5 4) := by decide
theorem test_decode_swMI : decodeTableWord 24 0x0090F3 = some (.swMI 7 0x90 0x00) := by decide
theorem test_decode_lda : decodeTableWord 24 0x341284 = some (.lda 0x12 0x34) := by decide
theorem test_decode_pushSR : decodeTableWord 16 0x0005 = some (.pushSR 0) := by decide
theorem test_decode_pushSI : decodeTableWord 16 0x4285 = some (.pushSI 0x42) := by decide
theorem test_decode_popD : decodeTableWord 16 0x0106 = some (.popD 1) := by decide
theorem test_decode_jnzSR : decodeTableWord 16 0x0607 = some (.jnzSR 6) := by decide
theorem test_decode_jnzSI : decodeTableWord 16 0x0187 = some (.jnzSI 1) := by decide

theorem test_encode_swMI : encode Config.params (.swMI 1 0x80 0x10) = [0x93, 0x80, 0x10] := by decide
theorem test_encode_popD : encode Config.params (.popD 1) = [0x06, 0x01] := by decide

/-- UND-1 to UND-5 of 95_test_vectors.md 2.4, and 0x80 and 0x0F. -/
theorem test_undefined_bytes : [0x00, 0x04, 0x86, 0x11, 0x8D, 0x80, 0x0F].map (decodeOpcode Config.params) =
    [0x00, 0x04, 0x86, 0x11, 0x8D, 0x80, 0x0F].map (fun b => Except.error (.undefinedOpcode b)) := rfl

theorem test_truncated : decode Config.params [0x81, 0x00] = .error .truncated := rfl

/-! One execute phase each: the vectors of 95_test_vectors.md section 2 -/

/-- The instruction bytes fetched from 0x8000, before the execute phase. -/
def ready (ph : Phase) (ir arg1 arg2 pcl : Byte) : State :=
  { State.reset with phase := ph, ir := ir, arg1 := arg1, arg2 := arg2, pch := 0x80, pcl := pcl }

/-- A 3-byte instruction before its phase 3, and a 2-byte one before its phase 2. -/
def ready3 (ir arg1 arg2 : Byte) : State := ready .p3 ir arg1 arg2 0x03
def ready2 (ir arg1 : Byte) : State := ready .p2 ir arg1 0 0x02

/-- The next state, if there is one. -/
def after : Host.Outcome State Fault Refusal → Option State
  | .next t => some t
  | .fault _ => none
  | .refused _ => none

/-- MOV-1. -/
theorem test_mov_copies :
    (after (step ((ready3 0x01 1 2).setReg .C 0x5A))).map (fun t => (t.regs.b, t.phase)) = some (0x5A, .p0) := by decide
/-- MOV-4. -/
theorem test_mov_invalid_source :
    (after (step ((ready3 0x01 0 7).setReg .A 0x33))).map (fun t => (t.regs.a, t.anomalies)) =
      some (0xFF, [⟨.invalidRegisterRead, 7, 0x8003, .p3⟩]) := by decide
/-- LDA-1. -/
theorem test_lda : (after (step (ready3 0x84 0x12 0x34))).map (fun t => (t.regs.h, t.regs.l)) = some (0x12, 0x34) := by
  decide
/-- LW-4: the address is read before the destination is written. -/
theorem test_lw_destination_in_address :
    (after (step (((ready3 0x52 5 4).setReg .H 0x90).setByte 0x9000 0x77))).map (fun t => t.regs.h) = some 0x77 := by
  decide
/-- LW-6: the cell, not SPL. -/
theorem test_lw_mirror_cell :
    (after (step (((ready3 0x82 0xFF 0xFE).setSp 0x1234).setByte 0xFFFE 0xAB))).map (fun t => t.regs.a) = some 0xAB := by
  decide
/-- SW-1. -/
theorem test_sw_mirror_low :
    (after (step ((ready3 0x83 0xFF 0xFE).setSp 0x1234))).map (fun t => (t.sp, memRead 0xFFFE t)) = some (0x1200, 0) := by
  decide
/-- SW-4. -/
theorem test_sw_rom_aborts :
    (after (step ((ready3 0x83 0x12 0x34).setReg .A 0x99))).map (fun t => (t.fault, t.faulted, t.phase, memRead 0x1234 t)) =
      some (some (.romWrite 0x1234), true, .p3, 0) := by decide
/-- PUSH-3. -/
theorem test_push_onto_mirror :
    (after (step (ready2 0x85 0x42))).map (fun t => (t.sp, memRead 0xFFFF t)) = some (0x42FF, 0x42) := by decide
/-- PUSH-4. -/
theorem test_push_rom_keeps_sp :
    (after (step ((ready2 0x85 0x42).setSp 0x8000))).map (fun t => (t.sp, t.fault, t.phase)) =
      some (0x7FFF, some (.romWrite 0x7FFF), .p2) := by decide
/-- POP-2. -/
theorem test_pop_wraps :
    (after (step (((ready2 0x06 0).setSp 0xFFFF).setByte 0xFFFF 0x3C))).map (fun t => (t.regs.a, t.sp)) =
      some (0x3C, 0) := by decide
/-- POP-4. -/
theorem test_pop_flags :
    (after (step ((((ready2 0x06 6).setSp 0x9000).setReg .F 0x0F).setByte 0x9000 1))).map (fun t => (t.regs.f, t.sp)) =
      some (1, 0x9001) := by decide
/-- JNZ-4. -/
theorem test_jnz_taken :
    (after (step ((((ready2 0x07 6).setReg .H 0x80).setReg .L 0x40).setReg .F 1))).map (fun t => t.pc) = some 0x8040 := by
  decide
/-- JNZ-2. -/
theorem test_jnz_not_taken :
    (after (step (((ready2 0x87 0).setReg .H 0x80).setReg .L 0x40))).map (fun t => t.pc) = some 0x8002 := by decide
/-- ADD-5, phase 3: the sum is written to F, then CARRY is ORed in. -/
theorem test_add_into_flags :
    (after (step ((ready3 0x88 6 1).setReg .F 0xFF))).map (fun t => (t.regs.f, t.phase)) = some (1, .p4) := by decide
/-- ADD-1, phase 4, after E5 step 8 of 95_test_vectors.md: the written sum 0x00 is compared with 0x01. -/
theorem test_add_compares_after_write :
    (after (step ((ready .p4 0x88 0 1 0x03).setReg .F 1))).map (fun t => (t.regs.f, t.phase)) = some (9, .p0) := by decide
/-- ADC-2, phase 3. -/
theorem test_adc_carry_in :
    (after (step ((((ready3 0x09 0 1).setReg .A 0xFF).setReg .B 0xFF).setReg .F 1))).map (fun t => (t.regs.a, t.regs.f)) =
      some (0xFF, 1) := by decide
/-- ADC-3, phase 4. -/
theorem test_adc_flags :
    (after (step ((ready .p4 0x89 0 0 0x03).setReg .A 0x7F))).map (fun t => (t.regs.a, t.regs.f)) = some (0x7F, 2) := by
  decide
/-- AND-2. -/
theorem test_and_masks_flags :
    (after (step ((ready3 0x8A 6 1).setReg .F 0x0B))).map (fun t => t.regs.f) = some 1 := by decide
/-- AND-3. -/
theorem test_and_keeps_flags :
    (after (step (((ready3 0x8A 0 0).setReg .A 0xFF).setReg .F 4))).map (fun t => (t.regs.a, t.regs.f)) = some (0, 4) := by
  decide
/-- NOR-2. -/
theorem test_nor_inverts_flags :
    (after (step ((ready3 0x0B 6 6).setReg .F 1))).map (fun t => t.regs.f) = some 0xFE := by decide
/-- NOR-3. -/
theorem test_nor_with_ones :
    (after (step ((ready3 0x8B 0 0xFF).setReg .A 0x12))).map (fun t => t.regs.a) = some 0 := by decide
/-- CMP-3. -/
theorem test_cmp_clears_carry :
    (after (step (((ready3 0x8C 0 0).setReg .A 0xFF).setReg .F 1))).map (fun t => (t.regs.a, t.regs.f)) =
      some (0xFF, 2) := by decide
/-- CMP-1. -/
theorem test_cmp_less :
    (after (step ((ready3 0x8C 1 0x20).setReg .B 0x10))).map (fun t => t.regs.f) = some 8 := by decide

/-! The phases and the host -/

/-- A program of bytes from 0x0000 on, in phase 0. -/
def booted (bytes : List Byte) : State := placeBytes 0 bytes State.reset

/-- P8 and UND-1. -/
theorem test_zeroed_memory_aborts :
    (after (step State.reset)).map (fun t => (t.fault, t.pc, t.phase)) =
      some (some (.undefinedOpcode 0 0), 1, .p0) := by decide
/-- IO-2: the event of phase 0. -/
theorem test_io_event :
    (after (step ((booted [0x01, 0x01, 0x00]).setByte 0xFF00 1))).map (fun t => (t.ioEvents, t.ioPrev)) =
      some ([1], 1) := by decide
/-- IO-4 and IO-5. -/
theorem test_host_writes :
    (hostWrite Config.params 0xFFFE 0x12 State.reset).isNone = true ∧
      (hostWrite Config.params 0x1234 0xAA State.reset).map (memRead 0x1234) = some 0xAA := by decide
/-- The readout after E5 step 7 of 95_test_vectors.md: PC, IR, ARG1, ARG2 and the phase are visible to the host. -/
theorem test_readout :
    ((hostReadout (ready3 0x88 0 1)).pc, (hostReadout (ready3 0x88 0 1)).ir, (hostReadout (ready3 0x88 0 1)).arg2,
      (hostReadout (ready3 0x88 0 1)).phase) = (0x8003, 0x88, 1, .p3) := by decide
/-- 43_control.md R174: the end of JNZ 0x00 at 0x0000 with E = 0x0002 comes after 3 steps and not before. -/
theorem test_end_of_run :
    (endOfRun 2 3 (booted [0x87, 0x00])).map (fun t => (t.pc, t.phase)) = some (2, .p0) ∧
      endOfRun 2 2 (booted [0x87, 0x00]) = none := by decide
/-- A run that loops through E ends at its first pass: JNZ 0x01 to 0x0000 from 0x0000, with E = 0x0000. -/
theorem test_end_of_run_first :
    endOfRun 0 6 (booted [0x87, 0x01]) = some (booted [0x87, 0x01]) := by decide
/-- withFetchWord leaves MOV A 0xFF (E5) ready to run. -/
theorem test_withFetchWord :
    (after (step (State.reset.withFetchWord 24 0xFF0081))).map (fun t => (t.regs.a, t.pc)) = some (0xFF, 3) := by decide
theorem test_withFetchWord_short :
    (after (step (State.reset.withFetchWord 16 0x4285))).map (fun t => (memRead 0xFFFF t, t.pc)) = some (0x42, 2) := by
  decide
/-- An undefined opcode is met in phase 0. -/
theorem test_withFetchWord_undefined :
    (after (step (State.reset.withFetchWord 24 0x000000))).map (fun t => t.faulted) = some true := by decide

/-- The expansions of JMP 0x80 0x00 and CALL 0x00 0x20 at 0x000C (programs P7 and P4). -/
theorem test_pseudo_jmp :
    ((Pseudo.jmp (.abs 0x80 0x00)).expand Config.params).map (List.flatMap (encode Config.params)) =
      some [0x84, 0x80, 0x00, 0x87, 0x01] := by decide
theorem test_pseudo_call :
    ((Pseudo.call 0x000C (.abs 0x00 0x20)).expand Config.params).map (List.flatMap (encode Config.params)) =
      some [0x85, 0x00, 0x85, 0x15, 0x84, 0x00, 0x20, 0x87, 0x01] := by decide

/-! Witnesses: the hypotheses of the statements can be met, each clause at a boundary of its range -/

theorem witness_DecodeOfEncode : Config.params.wfOpcodes = true ∧ (Instr.lwMR 7 0 0).wf = true := by decide

theorem witness_EncodeOfDecode : decode Config.params [0xF3, 0x90, 0x00, 0x55] = .ok (.swMI 7 0x90 0x00, [0x55]) := rfl

/-- A 2-byte and a 3-byte instruction at 0x0000, and one across the wrap of PC. -/
theorem witness_StepRuns_two :
    (booted [0x85, 0x42]).faulted = false ∧ (booted [0x85, 0x42]).phase = .p0 ∧
      decode Config.params [memRead (booted [0x85, 0x42]).pc (booted [0x85, 0x42]),
        memRead ((booted [0x85, 0x42]).pc + 1) (booted [0x85, 0x42]),
        memRead ((booted [0x85, 0x42]).pc + 2) (booted [0x85, 0x42])] = .ok (.pushSI 0x42, [0]) := ⟨rfl, rfl, rfl⟩

/-- ADD at 0xFFFE, its last byte at 0x0000. -/
def wrapping : State := (placeBytes 0xFFFE [0x88, 0x00, 0x01] State.reset).setPc 0xFFFE

theorem witness_StepRuns_three :
    wrapping.faulted = false ∧ wrapping.phase = .p0 ∧
      decode Config.params [memRead wrapping.pc wrapping, memRead (wrapping.pc + 1) wrapping,
        memRead (wrapping.pc + 2) wrapping] = .ok (.addRI 0 1, []) := ⟨rfl, rfl, rfl⟩

theorem witness_StepRuns_flag_phase :
    hasFlagPhase (Instr.addRI 0 1).opcode.prim = true ∧
      ∃ t, exec (.addRI 0 1) (ready3 0x88 0 1) = .next t := ⟨rfl, _, rfl⟩

/-- SW at the two sides of the ROM bound, from phase 0 to the state before its execute phase. -/
theorem witness_StepCount_abort :
    (booted [0x83, 0x7F, 0xFF]).faulted = false ∧ (booted [0x83, 0x7F, 0xFF]).phase = .p0 ∧
      decode Config.params [memRead 0 (booted [0x83, 0x7F, 0xFF]), memRead 1 (booted [0x83, 0x7F, 0xFF]),
        memRead 2 (booted [0x83, 0x7F, 0xFF])] = .ok (.swMI 0 0x7F 0xFF, []) ∧
      ∃ f, runFor 3 (booted [0x83, 0x7F, 0xFF]) = .next f ∧ storeAddr (.swMI 0 0x7F 0xFF) f = some 0x7FFF :=
  ⟨rfl, rfl, rfl, _, rfl, rfl⟩

theorem witness_StepCount_store :
    ∃ f, runFor 3 (booted [0x83, 0x80, 0x00]) = .next f ∧ storeAddr (.swMI 0 0x80 0x00) f = some 0x8000 :=
  ⟨_, rfl, rfl⟩

theorem witness_PhaseZero : (booted [0x81]).faulted = false ∧ (booted [0x81]).phase = .p0 ∧
    decodeOpcode Config.params (memRead (booted [0x81]).pc (booted [0x81])) = .ok ⟨.mov, true, 0⟩ := ⟨rfl, rfl, rfl⟩

theorem witness_NeedsSecondOperandByte : decodeOpcode Config.params 0xF3 = .ok ⟨.sw, true, 7⟩ ∧
    decodeOpcode Config.params 0x85 = .ok ⟨.push, true, 0⟩ ∧
    decode Config.params [0x85, 0x42, 0x00] = .ok (.pushSI 0x42, [0x00]) := ⟨rfl, rfl, rfl⟩

theorem witness_PhaseOne : (ready .p1 0x81 0 0 1).faulted = false ∧ (ready .p1 0x81 0 0 1).phase = .p1 := ⟨rfl, rfl⟩

theorem witness_PhaseTwo :
    (ready2 0x81 0).faulted = false ∧ (ready2 0x81 0).phase = .p2 ∧ needs2 Config.params (ready2 0x81 0).ir = true := by
  decide

theorem witness_UndefinedOpcode :
    State.reset.faulted = false ∧ State.reset.phase = .p0 ∧
      decodeOpcode Config.params (memRead State.reset.pc State.reset) =
        .error (.undefinedOpcode (memRead State.reset.pc State.reset)) := ⟨rfl, rfl, rfl⟩

theorem witness_Faulted : (State.reset.abort (.badPhase .p5)).faulted = true := rfl

theorem witness_PhasesFiveAndSix : (ready .p5 0 0 0 0).faulted = false ∧ (ready .p5 0 0 0 0).phase = .p5 ∧
    (ready .p6 0 0 0 0).faulted = false ∧ (ready .p6 0 0 0 0).phase = .p6 := ⟨rfl, rfl, rfl, rfl⟩

/-- Statements about a next state: one in phase 0 with a changed byte at 0xFF00, one without, one in a later phase. -/
theorem witness_next_phase_zero : ∃ t, step ((booted [0x81]).setByte 0xFF00 5) = .next t ∧ t.ir = 0x81 ∧ t.ioEvents = [5] :=
  ⟨_, rfl, rfl, rfl⟩

theorem witness_next_no_event : ∃ t, step (booted [0x81]) = .next t ∧ t.ioEvents = [] := ⟨_, rfl, rfl⟩

theorem witness_next_later_phase :
    (ready3 0x01 0 7).phase ≠ .p0 ∧ ∃ t, step (ready3 0x01 0 7) = .next t ∧ t.anomalies ≠ [] := by
  refine ⟨by decide, _, rfl, by decide⟩

theorem witness_next_faulted : ∃ t, step (State.reset.abort (.badPhase .p6)) = .next t ∧ t.faulted = true := ⟨_, rfl, rfl⟩

theorem witness_Inv_fetch : (booted [0x81]).Inv ∧ ∃ t, step (booted [0x81]) = .next t := ⟨⟨rfl, rfl, rfl⟩, _, rfl⟩

theorem witness_Inv_flag_phase : (ready .p4 0x88 0 1 3).Inv ∧ ∃ t, step (ready .p4 0x88 0 1 3) = .next t :=
  ⟨⟨rfl, rfl, rfl⟩, _, rfl⟩

theorem witness_Pc_fetch : ∃ t, step (booted [0x81]) = .next t ∧ t.pc ≠ (booted [0x81]).pc := ⟨_, rfl, by decide⟩

theorem witness_Pc_jump :
    ∃ t, step ((ready2 0x87 1).setReg .H 0x90) = .next t ∧ t.pc ≠ ((ready2 0x87 1).setReg .H 0x90).pc :=
  ⟨_, rfl, by decide⟩

theorem witness_Sp_push : ∃ t, step ((ready2 0x85 1).setSp 0x9000) = .next t ∧ t.sp ≠ ((ready2 0x85 1).setSp 0x9000).sp :=
  ⟨_, rfl, by decide⟩

theorem witness_Sp_pop : ∃ t, step (ready2 0x06 1) = .next t ∧ t.sp ≠ (ready2 0x06 1).sp := ⟨_, rfl, by decide⟩

theorem witness_Sp_mirror :
    ∃ t, step ((ready3 0x83 0xFF 0xFF).setReg .A 9) = .next t ∧ t.sp ≠ ((ready3 0x83 0xFF 0xFF).setReg .A 9).sp :=
  ⟨_, rfl, by decide⟩

theorem witness_flags_lost :
    ∃ t, step ((ready3 0x8C 0 0).setReg .F 1) = .next t ∧ ((ready3 0x8C 0 0).setReg .F 1).regs.f.getLsbD 0 = true ∧
      t.regs.f.getLsbD 0 = false ∧ t.regs.f ≠ ((ready3 0x8C 0 0).setReg .F 1).regs.f :=
  ⟨_, rfl, by decide, by decide, by decide⟩

theorem witness_register_changes :
    ∃ t, step (ready3 0x81 0 5) = .next t ∧ Reg.A ≠ .F ∧ t.regs.get .A ≠ (ready3 0x81 0 5).regs.get .A :=
  ⟨_, rfl, by decide, by decide⟩

theorem witness_register_changes_lda :
    ∃ t, step (ready3 0x84 1 2) = .next t ∧ t.regs.get .H ≠ (ready3 0x84 1 2).regs.get .H := ⟨_, rfl, by decide⟩

theorem witness_memory_changes_sw :
    ∃ t, step ((ready3 0x83 0x80 0x00).setReg .A 1) = .next t ∧
      memRead 0x8000 t ≠ memRead 0x8000 ((ready3 0x83 0x80 0x00).setReg .A 1) := ⟨_, rfl, by decide⟩

theorem witness_memory_changes_push :
    ∃ t, step ((ready2 0x85 1).setSp 0x9000) = .next t ∧
      memRead 0x8FFF t ≠ memRead 0x8FFF ((ready2 0x85 1).setSp 0x9000) := ⟨_, rfl, by decide⟩

theorem witness_rom_address : (0x7FFF : Addr).toNat < 0x8000 ∧ ∃ t, step (ready3 0x83 0x7F 0xFF) = .next t :=
  ⟨by decide, _, rfl⟩

theorem witness_TwoByte :
    (ready2 0x85 1).phase = .p2 ∧ needs2 Config.params (ready2 0x85 1).ir = false ∧ ∃ t, step (ready2 0x85 1) = .next t :=
  ⟨rfl, by decide, _, rfl⟩

theorem witness_RegisterRead : regNamed Config.params 0 = some .A ∧ regNamed Config.params 6 = some .F ∧
    regNamed Config.params 7 = none ∧ regNamed Config.params 0xFF = none := by decide

theorem witness_RamWrite : State.reset.mem.wf = true ∧ 0x8000 ≤ (0x8000 : Addr).toNat ∧ (0x8000 : Addr).toNat < 0xFF00 ∧
    0x8000 ≤ (0xFEFF : Addr).toNat ∧ (0xFEFF : Addr).toNat < 0xFF00 := by decide

theorem witness_IoWrite : State.reset.mem.wf = true ∧ 0xFF00 ≤ (0xFF00 : Addr).toNat ∧ 0xFF00 ≤ (0xFFFE : Addr).toNat ∧
    0xFF00 ≤ (0xFFFF : Addr).toNat := by decide

/-- H is 0x80, L is 0: the lowest address that SW stores to. -/
def pointed : State := (ready3 0x13 5 4).setReg .H 0x80

theorem witness_SwStores : pointed.mem.wf = true ∧ 0x8000 ≤ (readAddr Config.params (.regs 5 4) pointed).1.toNat ∧
    0x8000 ≤ (readAddr Config.params (.imm 0x80 0x00) pointed).1.toNat ∧
    0x8000 ≤ (readAddr Config.params (.imm 0xFF 0xFF) pointed).1.toNat := by decide

theorem witness_SwIntoRom : (joinBytes (regVal State.reset 5) (regVal State.reset 4)).toNat < 0x8000 ∧
    (joinBytes 0x7F 0xFF).toNat < 0x8000 := by decide

theorem witness_PushStores : (ready2 0x85 1).mem.wf = true ∧ 0x8000 ≤ (pushAddr Config.params (ready2 0x85 1)).toNat ∧
    0x8000 ≤ (pushAddr Config.params ((ready2 0x85 1).setSp 0x8001)).toNat := by decide

theorem witness_PushIntoRom : (((ready2 0x85 1).setSp 0x8000).sp - 1).toNat < 0x8000 := by decide

theorem witness_Add : (ready3 0x88 0 1).phase = .p3 ∧ (ready .p4 0x88 0 1 3).phase = .p4 := ⟨rfl, rfl⟩

theorem witness_AddLaws : (ready3 0x88 0 1).phase = .p3 ∧ namedReg 0 = some .A ∧ Reg.A ≠ .F ∧ namedReg 5 = some .H := by
  decide

/-- The other parameter values that statements speak of. -/
def preWriteParams : Params := { Params.default with addCmp := .preWrite }
def postdecParams : Params := { Params.default with stack := .postdecPush }

theorem witness_PreWrite : preWriteParams.addCmp = .preWrite ∧ (ready3 0x88 0 1).phase = .p3 ∧
    (Instr.addRI 0 1, Operand.imm 1) ∈
      [(Instr.addRR 0 1, Operand.reg 1), (.addRI 0 1, .imm 1), (.adcRR 0 1, .reg 1), (.adcRI 0 1, .imm 1)] := by decide

theorem witness_Postdec : postdecParams.stack = .postdecPush ∧ postdecParams.wfMap = true ∧
    State.reset.mem.wf = true ∧ ¬ pushAddr postdecParams (State.reset.setSp 0x8000) < postdecParams.ramBase ∧
    pushAddr postdecParams (State.reset.setSp 0x7FFF) < postdecParams.ramBase ∧ postdecParams.romWrite = .abort ∧
    (State.reset.setSp 0xFFFE).sp = postdecParams.splAddr ∧ (State.reset.setSp 0xFFFF).sp = postdecParams.sphAddr ∧
    ¬ pushAddr postdecParams (State.reset.setSp 0xFFFE) < postdecParams.ramBase ∧
    (Instr.pushSR 6, Operand.reg 6) ∈ [(Instr.pushSR 6, Operand.reg 6), (.pushSI 6, .imm 6)] ∧
    regNamed postdecParams (operandCode postdecParams 6) = some .F ∧
    regNamed postdecParams (operandCode postdecParams 7) = none := by decide

theorem witness_RomPolicies : (0x7FFF : Addr) < { Params.default with romWrite := .discard }.ramBase ∧
    State.reset.mem.wf = true ∧ { Params.default with romWrite := .discard }.romWrite = .discard ∧
    (0 : Addr) < { Params.default with romWrite := .store }.ramBase ∧
    { Params.default with romWrite := .store }.romWrite = .store := by decide

theorem witness_InvalidOperandBytes : { Params.default with regDec := .low3 }.wfRegCodes = true ∧
    { Params.default with regDec := .low3 }.regCode = Params.default.regCode ∧
    { Params.default with regDec := .low3 }.regDec = .low3 := by decide

theorem witness_HostWrite : State.reset.mem.wf = true ∧ (0 : Addr) ≠ 0xFFFE ∧ (0 : Addr) ≠ 0xFFFF ∧
    (0xFFFD : Addr) ≠ 0xFFFE ∧ (0xFFFD : Addr) ≠ 0xFFFF := by decide

/-- The longest image, and a byte of it. -/
theorem witness_LoadImage : State.reset.mem.wf = true ∧ 0x8000 + (List.replicate 0x7FFE (1 : Byte)).length ≤ 0xFFFE ∧
    0x7FFD < (List.replicate 0x7FFE (1 : Byte)).length := by
  rw [List.length_replicate]
  decide

theorem witness_HostMoves :
    (∃ t, hostMove Config.params (.write 0x1234 0xAA) State.reset = some t) ∧
      (∃ t, hostMove Config.params (.load [0x88, 0x01, 0x01]) State.reset = some t) ∧
      (∃ t, hostMove Config.params .reset wrapping = some t) ∧ wrapping.Inv :=
  ⟨⟨_, rfl⟩, ⟨_, rfl⟩, ⟨_, rfl⟩, rfl, rfl, rfl⟩

theorem witness_HostReads : wrapping.mem.wf = true ∧ hostReadout wrapping = hostReadout wrapping ∧
    ∀ a : Addr, hostRead a wrapping = hostRead a wrapping := ⟨rfl, rfl, fun _ => rfl⟩

theorem witness_Pseudo : ∃ is, (Pseudo.sub 0 (.reg 1)).expand Config.params = some is := ⟨_, rfl⟩

end Sys2Proof.Tests
end

section
/-! What a register code reads as and what reading it records (10_state.md R23), for a valid and for an invalid code. -/

namespace Sys2Proof.Machine

theorem regVal_of_valid {c : Byte} {r : Reg} (h : namedReg c = some r) (s : State) : regVal s c = s.regs.get r := by
  simp [regVal, h]

theorem readNote_of_valid {c : Byte} {r : Reg} (h : namedReg c = some r) (s : State) : readNote s c = [] := by
  simp [readNote, h]

theorem regVal_of_invalid {c : Byte} (h : namedReg c = none) (s : State) : regVal s c = 0xFF := by
  simp [regVal, h]

theorem readNote_of_invalid {c : Byte} (h : namedReg c = none) (s : State) :
    readNote s c = [⟨.invalidRegisterRead, c, s.pc, s.phase⟩] := by
  simp [readNote, h]

/-- Settles O29, by whether the code names a register: each case is `readReg_params` with the value and the anomalies of
that code. -/
theorem registerReadGivesValueOrSentinel : Obligations.RegisterReadGivesValueOrSentinel := by
  intro c s
  rw [regNamed_params, readReg_params]
  constructor
  case left =>
    intro r valid
    rw [regVal_of_valid valid, readNote_of_valid valid, addNotes_nil]
  case right =>
    intro invalid
    rw [regVal_of_invalid invalid, readNote_of_invalid invalid]
    rfl

end Sys2Proof.Machine
end

section
/-! What storing one byte does (20_memory.md R55): it changes memory at its address and the state nowhere else. -/

namespace Sys2Proof.Machine

theorem sameMemoryBut_setByte (a : Addr) (v : Byte) (s : State) : SameMemoryBut a s (s.setByte a v) :=
  fun _ other => memRead_setByte_ne other v s

/-- A store touches no field but memory. -/
theorem setByte_frame (a : Addr) (v : Byte) (s : State) : { s.setByte a v with mem := s.mem } = s := rfl

/-- The default region bounds as numbers: from 0x8000 below 0xFF00 a core write is the plain store. -/
theorem memWrite_params_ram {a : Addr} (lo : 0x8000 ≤ a.toNat) (hi : a.toNat < 0xFF00) (v : Byte) (s : State) :
    memWrite Config.params a v s = .ok (s.setByte a v) := by
  have notRom : ¬ a < Config.params.ramBase := BitVec.not_lt.2 (BitVec.le_def.2 lo)
  have notIo : a < Config.params.ioBase := BitVec.lt_def.2 hi
  exact memWrite_ram notRom notIo v s

/-- Settles O31: the state after the write is the one byte stored, so the read back, the other addresses and the other
fields are the laws of the store. -/
theorem coreWriteToRamStoresOneByte : Obligations.CoreWriteToRamStoresOneByte := by
  intro a v s wf lo hi
  exact ⟨s.setByte a v, memWrite_params_ram lo hi v s, memRead_setByte_self wf a v, sameMemoryBut_setByte a v s,
    setByte_frame a v s⟩

end Sys2Proof.Machine
end

section
/-! The length of an instruction (30_encoding.md R90): two or three bytes by the primitive, and so by the opcode byte alone. -/

namespace Sys2Proof

/-- The primitives R90 lists as needing a second operand byte. -/
theorem Primitive.length_eq_three_iff (k : Primitive) :
    k.length = 3 ↔ k ∈ [Primitive.mov, .lw, .sw, .lda, .add, .adc, .and, .nor, .cmp] := by
  cases k <;> decide

/-- The primitives for which R90 says `needs2` is false. -/
theorem Primitive.length_ne_three_iff (k : Primitive) : k.length ≠ 3 ↔ k ∈ [Primitive.push, .pop, .jnz] := by
  cases k <;> decide

theorem needs2_of_ok {p : Params} {b : Byte} {o : Opcode} (h : decodeOpcode p b = .ok o) :
    needs2 p b = (o.prim.length == 3) := by
  rw [needs2, h]

theorem needs2_of_error {p : Params} {b : Byte} {e : DecodeError} (h : decodeOpcode p b = .error e) :
    needs2 p b = false := by
  rw [needs2, h]

theorem needs2_eq_true_iff (p : Params) (b : Byte) :
    needs2 p b = true ↔ ∃ o, decodeOpcode p b = .ok o ∧ o.prim.length = 3 := by
  cases h : decodeOpcode p b with
  | error e => simp [needs2_of_error h]
  | ok o => simp [needs2_of_ok h]

/-- Operand bytes do not change the primitive that the opcode byte names. -/
theorem Opcode.instr_prim (o : Opcode) (arg1 arg2 : Byte) : (o.instr arg1 arg2).opcode.prim = o.prim := by
  obtain ⟨prim, imm, reg⟩ := o
  cases prim <;> cases imm <;> rfl

theorem Opcode.instr_length (o : Opcode) (arg1 arg2 : Byte) : (o.instr arg1 arg2).length = o.prim.length :=
  congrArg Primitive.length (o.instr_prim arg1 arg2)

/-- What the decoder reads after a defined opcode byte is that opcode with some operand bytes. -/
theorem decode_cons_ok {p : Params} {b : Byte} {o : Opcode} {bs rest : List Byte} {i : Instr}
    (opcode : decodeOpcode p b = .ok o) (read : decode p (b :: bs) = .ok (i, rest)) :
    ∃ arg1 arg2, i = o.instr arg1 arg2 := by
  rw [decode_cons, opcode] at read
  dsimp only at read
  split at read
  case h_1 => cases read; exact ⟨_, _, rfl⟩
  case h_2 => cases read; exact ⟨_, _, rfl⟩
  case h_3 => cases read

/-- Settles O5: `needs2` is the test of the decoded length for 3, and the length is that of the primitive, which the
operand bytes leave as the opcode byte names it. -/
theorem needsSecondOperandByteExactlyForLengthThree : Obligations.NeedsSecondOperandByteExactlyForLengthThree := by
  intro b
  refine ⟨needs2_eq_true_iff Config.params b, fun o opcode => ⟨?three, ?two, ?length⟩⟩
  case three => rw [needs2_of_ok opcode, beq_iff_eq, Primitive.length_eq_three_iff]
  case two => rw [needs2_of_ok opcode, beq_eq_false_iff_ne, Primitive.length_ne_three_iff]
  case length =>
    intro arg1 arg2 i rest read
    obtain ⟨a1, a2, rfl⟩ := decode_cons_ok opcode read
    exact o.instr_length a1 a2

end Sys2Proof
end

section
/-! The fetch phases (40_cycle.md R112, R114, R115): which fetch a step performs, and what each fetch leaves. -/

namespace Sys2Proof.Machine

section

variable {s : State} (running : s.faulted = false)
include running

/-- A step in phase 0 is the opcode fetch. -/
theorem step_of_phase_zero (phase : s.phase = .p0) : step s = .next (fetchOpcode Config.params s) := by
  simp [step, runPhase, running, phase]

/-- A step in phase 1 is the fetch of the first operand byte. -/
theorem step_of_phase_one (phase : s.phase = .p1) : step s = .next (fetchArg1 s) := by
  simp [step, runPhase, running, phase]

/-- A step in phase 2 of a 3-byte instruction is the fetch of the second operand byte. -/
theorem step_of_phase_two (phase : s.phase = .p2) (three : needs2 Config.params s.ir = true) :
    step s = .next (fetchArg2 s) := by
  simp [step, runPhase, running, phase, three]

end

/-- On a defined opcode phase 0 ends in phase 1. -/
theorem fetchOpcode_of_ok {s : State} {o : Opcode} (h : decodeOpcode Config.params (memRead s.pc s) = .ok o) :
    fetchOpcode Config.params s = s.opcodeFetched.at .p1 := by
  rw [fetchOpcode_params, h]

/-- On an undefined opcode phase 0 ends in the abort that names the opcode's address and byte. -/
theorem fetchOpcode_of_error {s : State} {e : DecodeError}
    (h : decodeOpcode Config.params (memRead s.pc s) = .error e) :
    fetchOpcode Config.params s = s.opcodeFetched.abort (.undefinedOpcode s.pc (memRead s.pc s)) := by
  rw [fetchOpcode_params, h]

/-- Settles O8, by whether the opcode byte decodes: phase 0 ends in phase 1 or in the abort, and the clause of the other
outcome does not apply. -/
theorem phaseZeroFetchesAndDecodesTheOpcode : Obligations.PhaseZeroFetchesAndDecodesTheOpcode := by
  intro s running phase
  refine ⟨fetchOpcode Config.params s, step_of_phase_zero running phase, ?_⟩
  cases opcode : decodeOpcode Config.params (memRead s.pc s) with
  | ok o =>
    rw [fetchOpcode_of_ok opcode]
    refine ⟨rfl, opcodeFetched_pc s, ?defined, nofun, rfl⟩
    case defined =>
      rintro _ ⟨⟩
      exact ⟨rfl, needs2_of_ok opcode, rfl, rfl⟩
  | error e =>
    rw [fetchOpcode_of_error opcode]
    exact ⟨rfl, opcodeFetched_pc s, nofun, fun _ _ => ⟨phase, rfl, rfl⟩, rfl⟩

/-- Settles O9: the step is `fetchArg1`, which writes ARG1, the two halves of PC and the phase alone. -/
theorem phaseOneFetchesFirstOperandByte : Obligations.PhaseOneFetchesFirstOperandByte := by
  intro s running phase
  exact ⟨fetchArg1 s, step_of_phase_one running phase, rfl, fetchArg1_pc s, rfl, rfl⟩

/-- Settles O10: the step is `fetchArg2`, which writes ARG2, the two halves of PC and the phase alone. -/
theorem phaseTwoFetchesSecondOperandByte : Obligations.PhaseTwoFetchesSecondOperandByte := by
  intro s running phase three
  exact ⟨fetchArg2 s, step_of_phase_two running phase three, rfl, fetchArg2_pc s, rfl, rfl⟩

end Sys2Proof.Machine
end

section
/-! Decoder and encoder invert each other (30_encoding.md R81 to R92). What an opcode byte can say is `Opcode.Defined`: it is
exactly what a defined byte decodes to, and what a well-formed instruction has as its row. -/

namespace Sys2Proof

/-- An opcode that some byte stands for: `RF` fits its field and is 0 but for LW and SW, LDA has only the immediate form and
POP only the register form (30_encoding.md R81, R89). -/
structure Opcode.Defined (o : Opcode) : Prop where
  reg_lt : o.reg.toNat < 8
  reg_zero : o.prim ≠ .lw → o.prim ≠ .sw → o.reg = 0
  lda_imm : o.prim = .lda → o.imm = true
  pop_reg : o.prim = .pop → o.imm = false

theorem Instr.opcode_defined {i : Instr} (h : i.wf = true) : i.opcode.Defined := by
  cases i
  case lwMR | lwMI | swMR | swMI => exact ⟨of_decide_eq_true h, by simp [Instr.opcode], nofun, nofun⟩
  all_goals exact ⟨show (0 : Byte).toNat < 8 by decide, fun _ _ => rfl, by simp [Instr.opcode], by simp [Instr.opcode]⟩

/-- The decoder reads back the three fields that the encoder wrote. -/
theorem decodeOpcode_encodeOpcode {p : Params} {o : Opcode} (ids : p.wfOpcodes = true) (h : o.Defined) :
    decodeOpcode p (encodeOpcode p o) = .ok o := by
  obtain ⟨imm, reg, id⟩ := encodeOpcode_fields p o h.reg_lt
  obtain ⟨prim, i, r⟩ := o
  obtain ⟨-, reg_zero, lda_imm, pop_reg⟩ := h
  simp only [decodeOpcode, imm, reg, id, primitiveOf_of p ids prim]
  cases prim
  case lw | sw => rfl
  all_goals
    obtain rfl : r = 0 := reg_zero nofun nofun
  case lda =>
    obtain rfl : i = true := lda_imm rfl
    rfl
  case pop =>
    obtain rfl : i = false := pop_reg rfl
    rfl
  all_goals cases i <;> rfl

theorem Opcode.defined_of_decodeOpcode {p : Params} {b : Byte} {o : Opcode} (h : decodeOpcode p b = .ok o) :
    o.Defined := by
  obtain ⟨-, -, reg, reg_zero, lda_imm, pop_reg⟩ := decodeOpcode_ok h
  exact ⟨reg ▸ opcodeReg_lt b, reg_zero, lda_imm, pop_reg⟩

/-- The fields that the decoder read, put together again, are the byte. -/
theorem encodeOpcode_of_decodeOpcode {p : Params} {b : Byte} {o : Opcode} (h : decodeOpcode p b = .ok o) :
    encodeOpcode p o = b := by
  obtain ⟨id, imm, reg, -⟩ := decodeOpcode_ok h
  rw [encodeOpcode, id, imm, reg]
  exact opcode_fields_join b

/-- The row of the instruction that a defined opcode and operand bytes make is that opcode. -/
theorem Opcode.Defined.instr_opcode {o : Opcode} (h : o.Defined) (arg1 arg2 : Byte) :
    (o.instr arg1 arg2).opcode = o := by
  obtain ⟨prim, imm, reg⟩ := o
  obtain ⟨-, reg_zero, lda_imm, pop_reg⟩ := h
  cases prim
  case lw | sw => cases imm <;> rfl
  all_goals
    obtain rfl : reg = 0 := reg_zero nofun nofun
  case lda =>
    obtain rfl : imm = true := lda_imm rfl
    rfl
  case pop =>
    obtain rfl : imm = false := pop_reg rfl
    rfl
  all_goals cases imm <;> rfl

theorem Opcode.instr_operands (o : Opcode) (arg1 arg2 : Byte) :
    (o.instr arg1 arg2).operands = if o.prim.length = 3 then [arg1, arg2] else [arg1] := by
  obtain ⟨prim, imm, reg⟩ := o
  cases prim <;> cases imm <;> rfl

theorem Opcode.Defined.instr_wf {o : Opcode} (h : o.Defined) (arg1 arg2 : Byte) : (o.instr arg1 arg2).wf = true := by
  have reg_lt := h.reg_lt
  obtain ⟨prim, imm, reg⟩ := o
  cases prim <;> cases imm
  case lw.false | lw.true | sw.false | sw.true => exact decide_eq_true reg_lt
  all_goals rfl

theorem Primitive.length_eq (k : Primitive) : k.length = 2 ∨ k.length = 3 := by
  cases k <;> decide

/-- The two ways the decoder accepts bytes: by the length of the opcode it reads one operand byte or two. -/
theorem decode_ok_cases {p : Params} {bytes : List Byte} {i : Instr} {rest : List Byte}
    (h : decode p bytes = .ok (i, rest)) :
    ∃ b o arg1, decodeOpcode p b = .ok o ∧
      ((o.prim.length = 2 ∧ bytes = b :: arg1 :: rest ∧ i = o.instr arg1 0) ∨
        ∃ arg2, o.prim.length = 3 ∧ bytes = b :: arg1 :: arg2 :: rest ∧ i = o.instr arg1 arg2) := by
  cases bytes with
  | nil => cases h
  | cons b bs =>
    rw [decode_cons] at h
    cases opcode : decodeOpcode p b with
    | error e => rw [opcode] at h; cases h
    | ok o =>
      rw [opcode] at h
      dsimp only at h
      split at h
      case h_1 length => cases h; exact ⟨b, o, _, opcode, .inl ⟨length, rfl, rfl⟩⟩
      case h_2 length => cases h; exact ⟨b, o, _, opcode, .inr ⟨_, length, rfl, rfl⟩⟩
      case h_3 => cases h

/-- Settles O3: the opcode byte decodes to the instruction's row, and that row with the operand bytes is the instruction, by
the constructors. -/
theorem decodeOfEncodeIsTheInstruction : Obligations.DecodeOfEncodeIsTheInstruction := by
  intro p i rest ids wf
  have opcode := decodeOpcode_encodeOpcode ids (i.opcode_defined wf)
  rw [encode, List.cons_append, decode_cons, opcode]
  cases i <;> rfl

/-- Settles O4: of the two ways to accept bytes each gives back its opcode byte, by `encodeOpcode_of_decodeOpcode`, and its
operand bytes. -/
theorem encodeOfDecodeIsTheBytes : Obligations.EncodeOfDecodeIsTheBytes := by
  intro p bytes i rest read
  obtain ⟨b, o, arg1, opcode, ⟨length, rfl, rfl⟩ | ⟨arg2, length, rfl, rfl⟩⟩ := decode_ok_cases read
  all_goals
    have defined := Opcode.defined_of_decodeOpcode opcode
    refine ⟨defined.instr_wf _ _, ?_⟩
    rw [encode, defined.instr_opcode, encodeOpcode_of_decodeOpcode opcode, o.instr_operands, length]
    rfl

/-- Settles O1: the eleven words are closed terms, and the decoder evaluates on each. -/
theorem decodeReadsSpecWords : Obligations.DecodeReadsSpecWords :=
  ⟨rfl, rfl, rfl, rfl, rfl, rfl, rfl, rfl, rfl, rfl, rfl⟩

/-- Settles O2: both sides are decidable, and the kernel evaluates them on each of the 256 bytes. -/
theorem undefinedOpcodesAreTheListedOnes : Obligations.UndefinedOpcodesAreTheListedOnes := by
  unfold Obligations.UndefinedOpcodesAreTheListedOnes
  decide +kernel

end Sys2Proof
end

section
/-! Frames of the next states (41_data_movement.md, 42_alu.md): each execute phase writes few fields, so its next state is an
update of the state before it, and what the update leaves alone is said once per kind of update. -/

namespace Sys2Proof.Machine

/-- An update of registers, anomaly record and phase. -/
theorem registersOnly_update (s : State) (regs : RegFile) (record : List Anomaly) (ph : Phase) :
    RegistersOnly s { s with regs := regs, anomalies := record, phase := ph } :=
  ⟨fun _ => rfl, rfl, rfl, ⟨rfl, rfl, rfl, rfl, rfl, rfl, rfl⟩, rfl, rfl⟩

/-- An update of PC, anomaly record and phase. -/
theorem sameHidden_jump (s : State) (target : Addr) (record : List Anomaly) (ph : Phase) :
    SameHidden s { s.setPc target with anomalies := record, phase := ph } :=
  ⟨rfl, rfl, rfl, rfl, rfl, rfl, rfl⟩

/-- A store with its mirror, an update of memory, SP, anomaly record and phase. -/
theorem storedAt_update {s : State} (wf : s.mem.wf = true) (a : Addr) (v : Byte) (sp : Addr) (record : List Anomaly)
    (ph : Phase) :
    StoredAt a v sp s { (s.setByte a v).setSp (mirrored a v sp) with anomalies := record, phase := ph } :=
  ⟨memRead_setByte_self wf a v, fun _ other => memRead_setByte_ne other v s, joinBytes_hi_lo _, fun _ => rfl, rfl,
    ⟨rfl, rfl, rfl, rfl, rfl, rfl, rfl⟩, rfl, rfl⟩

/-- An abort after an update of SP and the anomaly record. -/
theorem abortedWith_update (s : State) (sph spl : Byte) (record : List Anomaly) (k : Abort) :
    AbortedWith k s ({ s with sph := sph, spl := spl, anomalies := record }.abort k) :=
  ⟨rfl, rfl, fun _ => rfl, fun _ => rfl, rfl, ⟨rfl, rfl, rfl, rfl, rfl, rfl, rfl⟩, rfl⟩

/-- What an execute phase that writes one register code leaves: MOV, LW, AND and NOR are such phases. -/
theorem exists_wrote {r : Host.Outcome State Fault Refusal} {s : State} {d v : Byte} {notes record : List Anomaly}
    (next : r = .next ((s.wrote d v notes).at .p0)) (notes_eq : record = s.anomalies ++ (notes ++ writeNote s d)) :
    ∃ t, r = .next t ∧ RegWritten d v s t ∧ t.anomalies = record ∧ t.phase = .p0 ∧ RegistersOnly s t :=
  ⟨_, next, wrote_get s d v notes, notes_eq.symm, rfl, registersOnly_update s _ _ _⟩

/-- Settles O33: MOV writes the value of its operand. -/
theorem movCopiesItsOperand : Obligations.MovCopiesItsOperand := by
  intro d b s
  exact ⟨exists_wrote (movOp_params d (.reg b) s) (List.append_assoc ..), exists_wrote (movOp_params d (.imm b) s) rfl⟩

/-- Settles O34: LDA is two register writes, and H and L differ. -/
theorem ldaLoadsThePointerRegisters : Obligations.LdaLoadsThePointerRegisters := by
  intro hi lo s
  refine ⟨_, rfl, fun r => ?written, rfl, rfl, registersOnly_update s _ _ _⟩
  case written => cases r <;> rfl

/-- Settles O35: LW writes the byte at its address. -/
theorem lwLoadsTheByteAtItsAddress : Obligations.LwLoadsTheByteAtItsAddress := by
  intro r h l s
  exact ⟨exists_wrote (lwOp_params r (.regs h l) s) (by simp [addrNote]), exists_wrote (lwOp_params r (.imm h l) s) rfl⟩

/-- Settles O46: AND writes the conjunction of the two values read. -/
theorem andWritesTheConjunction : Obligations.AndWritesTheConjunction := by
  intro d b s
  exact ⟨exists_wrote (logicOp_params _ d (.reg b) s) (by simp [operandNote]),
    exists_wrote (logicOp_params _ d (.imm b) s) (by simp [operandNote])⟩

/-- Settles O47: NOR writes the complemented disjunction of the two values read. -/
theorem norWritesTheComplementedDisjunction : Obligations.NorWritesTheComplementedDisjunction := by
  intro d b s
  exact ⟨exists_wrote (logicOp_params (fun x y => ~~~(x ||| y)) d (.reg b) s) (by simp [operandNote]),
    exists_wrote (logicOp_params (fun x y => ~~~(x ||| y)) d (.imm b) s) (by simp [operandNote])⟩

theorem cmpOp_flagsWritten (a : Byte) (o : Operand) (s : State) :
    ∃ t, cmpOp Config.params a o s = .next t ∧ FlagsWritten (comparison (regVal s a) (operandVal s o)) s t ∧
      t.anomalies = s.anomalies ++ (readNote s a ++ operandNote s o) ∧ t.phase = .p0 ∧ RegistersOnly s t :=
  ⟨_, cmpOp_params a o s, fun r => RegFile.get_set _ _ r _, rfl, rfl, registersOnly_update s _ _ _⟩

/-- Settles O48: CMP in both forms is `cmpOp_flagsWritten`. -/
theorem cmpReplacesFlagsByTheComparison : Obligations.CmpReplacesFlagsByTheComparison := by
  intro a b s
  have register := cmpOp_flagsWritten a (.reg b) s
  have immediate := cmpOp_flagsWritten a (.imm b) s
  simp only [operandNote, ← List.append_assoc, List.append_nil] at register immediate
  exact ⟨register, immediate⟩

/-- Settles O40: POP is a register write after SP has moved, and the read came before both. -/
theorem popLoadsFromSp : Obligations.PopLoadsFromSp := by
  intro d s
  exact ⟨_, popOp_params d s, wrote_get (s.setSp (s.sp + 1)) d _ [], setSp_sp s _, rfl, rfl, fun _ => rfl, rfl,
    ⟨rfl, rfl, rfl, rfl, rfl, rfl, rfl⟩, rfl, rfl⟩

theorem jnzOp_jump (o : Operand) (s : State) :
    ∃ t, jnzOp Config.params o s = .next t ∧
      t.pc = (if operandVal s o = 0 then s.pc else joinBytes s.regs.h s.regs.l) ∧
      t.anomalies = s.anomalies ++ operandNote s o ∧ SameRegs s t ∧ SameMemory s t ∧ t.sp = s.sp ∧
      SameHidden s t ∧ SameStop s t ∧ t.phase = .p0 := by
  refine ⟨_, jnzOp_params o s, ?_⟩
  by_cases zero : operandVal s o = 0
  case pos =>
    rw [if_pos zero, if_pos zero]
    exact ⟨rfl, rfl, fun _ => rfl, fun _ => rfl, rfl, ⟨rfl, rfl, rfl, rfl, rfl, rfl, rfl⟩, ⟨rfl, rfl⟩, rfl⟩
  case neg =>
    rw [if_neg zero, if_neg zero]
    exact ⟨joinBytes_hi_lo _, rfl, fun _ => rfl, fun _ => rfl, rfl, sameHidden_jump s _ _ _, ⟨rfl, rfl⟩, rfl⟩

/-- Settles O41: JNZ in both forms is `jnzOp_jump`. -/
theorem jnzJumpsOnNonzero : Obligations.JnzJumpsOnNonzero := by
  intro b s
  have immediate := jnzOp_jump (.imm b) s
  rw [show s.anomalies ++ operandNote s (.imm b) = s.anomalies from List.append_nil _] at immediate
  exact ⟨jnzOp_jump (.reg b) s, immediate⟩

end Sys2Proof.Machine
end

section
/-! The stores of SW and PUSH (41_data_movement.md R133, R134): into ROM they abort, elsewhere they store and mirror. -/

namespace Sys2Proof.Machine

theorem lt_ramBase_iff (a : Addr) : a < 0x8000 ↔ a.toNat < 0x8000 := BitVec.lt_def

theorem memWrite_params_of_rom {a : Addr} (rom : a.toNat < 0x8000) (v : Byte) (s : State) :
    memWrite Config.params a v s = .error (s.abort (.romWrite a)) :=
  memWrite_rom (p := Config.params) ((lt_ramBase_iff a).2 rom) rfl v s

theorem memWrite_params_of_not_rom {a : Addr} (ram : 0x8000 ≤ a.toNat) (v : Byte) (s : State) :
    memWrite Config.params a v s = .ok ((s.setByte a v).setSp (mirrored a v s.sp)) := by
  rw [memWrite_params, if_neg (mt (lt_ramBase_iff a).1 (Nat.not_lt.2 ram))]

section

variable {s : State} (wf : s.mem.wf = true)
include wf

theorem swOp_storedAt (r : Byte) (o : AddrOperand) (ram : 0x8000 ≤ (addrVal s o).toNat) :
    ∃ t, swOp Config.params r o s = .next t ∧ StoredAt (addrVal s o) (regVal s r) s.sp s t ∧
      t.anomalies = s.anomalies ++ (addrNote s o ++ readNote s r) ∧ t.phase = .p0 := by
  rw [swOp_params, memWrite_params_of_not_rom ram]
  exact ⟨_, rfl, storedAt_update wf _ _ _ _ _, rfl, rfl⟩

theorem pushOp_storedAt (o : Operand) (ram : 0x8000 ≤ (s.sp - 1).toNat) :
    ∃ t, pushOp Config.params o s = .next t ∧ StoredAt (s.sp - 1) (operandVal s o) (s.sp - 1) s t ∧
      t.anomalies = s.anomalies ++ operandNote s o ∧ t.phase = .p0 := by
  rw [pushOp_params, pushByte_params, addNotes_sp, if_neg (mt (lt_ramBase_iff _).1 (Nat.not_lt.2 ram))]
  exact ⟨_, rfl, storedAt_update wf _ _ _ _ _, rfl, rfl⟩

end

theorem swOp_aborts (r : Byte) (o : AddrOperand) {s : State} (rom : (addrVal s o).toNat < 0x8000) :
    ∃ t, swOp Config.params r o s = .next t ∧ AbortedWith (.romWrite (addrVal s o)) s t ∧ t.sp = s.sp ∧
      t.anomalies = s.anomalies ++ (addrNote s o ++ readNote s r) := by
  rw [swOp_params, memWrite_params_of_rom rom]
  exact ⟨_, rfl, abortedWith_update s _ _ _ _, rfl, rfl⟩

theorem pushOp_aborts (o : Operand) {s : State} (rom : (s.sp - 1).toNat < 0x8000) :
    ∃ t, pushOp Config.params o s = .next t ∧ AbortedWith (.romWrite (s.sp - 1)) s t ∧ t.sp = s.sp - 1 ∧
      t.anomalies = s.anomalies ++ operandNote s o := by
  rw [pushOp_params, pushByte_params, addNotes_sp, if_pos ((lt_ramBase_iff _).2 rom)]
  exact ⟨_, rfl, abortedWith_update s _ _ _ _, joinBytes_hi_lo _, rfl⟩

theorem readAddr_params_fst (o : AddrOperand) (s : State) : (readAddr Config.params o s).1 = addrVal s o :=
  congrArg Prod.fst (readAddr_params o s)

/-- Settles O36: outside ROM SW in both forms is `swOp_storedAt`, at the address that `readAddr_params` names. -/
theorem swStoresAtItsAddress : Obligations.SwStoresAtItsAddress := by
  intro r h l s wf
  rw [readAddr_params_fst, readAddr_params_fst]
  refine ⟨⟨rfl, fun ram => ?register⟩, rfl, swOp_storedAt wf r (.imm h l)⟩
  case register =>
    obtain ⟨t, next, stored, notes, phase⟩ := swOp_storedAt wf r (.regs h l) ram
    exact ⟨t, next, stored, by simp [notes, addrNote], phase⟩

/-- Settles O37: into ROM SW in both forms is `swOp_aborts`. -/
theorem swIntoRomAborts : Obligations.SwIntoRomAborts := by
  intro r h l s
  refine ⟨fun rom => ?register, swOp_aborts r (.imm h l)⟩
  case register =>
    obtain ⟨t, next, aborted, sp, notes⟩ := swOp_aborts (s := s) r (.regs h l) rom
    exact ⟨t, next, aborted, sp, by simp [notes, addrNote]⟩

/-- Settles O38: outside ROM PUSH in both forms is `pushOp_storedAt`. -/
theorem pushStoresBelowSp : Obligations.PushStoresBelowSp := by
  intro b s wf
  refine ⟨rfl, fun ram => ⟨pushOp_storedAt wf (.reg b) ram, ?immediate⟩⟩
  case immediate =>
    obtain ⟨t, next, stored, notes, phase⟩ := pushOp_storedAt wf (.imm b) ram
    exact ⟨t, next, stored, by simp [notes, operandNote], phase⟩

/-- Settles O39: into ROM PUSH in both forms is `pushOp_aborts`. -/
theorem pushIntoRomAbortsAfterMovingSp : Obligations.PushIntoRomAbortsAfterMovingSp := by
  intro b s rom
  refine ⟨pushOp_aborts (.reg b) rom, ?immediate⟩
  obtain ⟨t, next, aborted, sp, notes⟩ := pushOp_aborts (.imm b) rom
  exact ⟨t, next, aborted, sp, by simp [notes, operandNote]⟩

end Sys2Proof.Machine
end

section
/-! The two phases of ADD and ADC (42_alu.md R151, R152, R156, R157). -/

namespace Sys2Proof.Machine

theorem wrote_orF_f (s : State) (d v w : Byte) (notes : List Anomaly) :
    ((s.wrote d v notes).orF w).regs.f = (if namedReg d = some .F then v else s.regs.f) ||| w :=
  (orF_get _ w .F).trans (congrArg (· ||| w) (wrote_get s d v notes .F))

/-- Phase 3 of ADD and ADC: the destination takes the sum, then F takes CARRY. -/
theorem addArith_sumWritten (c : Nat) (d : Byte) (o : Operand) (s : State) :
    SumWritten c d o s ((addArith Config.params c d o s).at .p4) := by
  rw [addArith_params]
  refine ⟨fun r other => ?destination, wrote_orF_f s d _ _ _, ?notes, rfl, registersOnly_update s _ _ _⟩
  case destination => exact ((orF_get _ _ r).trans (if_neg other)).trans (wrote_get s d _ _ r)
  case notes => simp [State.at, State.wrote]

theorem addFlags_comparisonOred (d : Byte) (o : Operand) (s : State) :
    ComparisonOred d o s ((addFlags Config.params d o s).at .p0) := by
  rw [addFlags_params]
  exact ⟨orF_get (s.addNotes _) _, (List.append_assoc ..).symm, rfl, registersOnly_update s _ _ _⟩

section

variable {p : Params} {s : State} (d : Byte) (o : Operand)

theorem addOp_of_phase_four (phase : s.phase = .p4) : addOp p d o s = .next ((addFlags p d o s).at .p0) := if_pos phase

theorem adcOp_of_phase_four (phase : s.phase = .p4) : adcOp p d o s = .next ((addFlags p d o s).at .p0) := if_pos phase

theorem addOp_of_phase_ne_four (phase : s.phase ≠ .p4) : addOp p d o s = .next ((addArith p 0 d o s).at .p4) :=
  if_neg phase

theorem adcOp_of_phase_ne_four (phase : s.phase ≠ .p4) :
    adcOp p d o s = .next ((addArith p (carryIn p s) d o s).at .p4) := if_neg phase

theorem phase_three_ne_four (phase : s.phase = .p3) : s.phase ≠ .p4 := by simp [phase]

end

theorem addOp_sumWritten {s : State} (phase : s.phase = .p3) (d : Byte) (o : Operand) :
    ∃ t, addOp Config.params d o s = .next t ∧ SumWritten 0 d o s t :=
  ⟨_, addOp_of_phase_ne_four d o (phase_three_ne_four phase), addArith_sumWritten 0 d o s⟩

theorem adcOp_sumWritten {s : State} (phase : s.phase = .p3) (d : Byte) (o : Operand) :
    ∃ t, adcOp Config.params d o s = .next t ∧ SumWritten (carryBit s) d o s t :=
  ⟨_, adcOp_of_phase_ne_four d o (phase_three_ne_four phase), addArith_sumWritten _ d o s⟩

theorem addOp_comparisonOred {s : State} (phase : s.phase = .p4) (d : Byte) (o : Operand) :
    ∃ t, addOp Config.params d o s = .next t ∧ ComparisonOred d o s t :=
  ⟨_, addOp_of_phase_four d o phase, addFlags_comparisonOred d o s⟩

theorem adcOp_comparisonOred {s : State} (phase : s.phase = .p4) (d : Byte) (o : Operand) :
    ∃ t, adcOp Config.params d o s = .next t ∧ ComparisonOred d o s t :=
  ⟨_, adcOp_of_phase_four d o phase, addFlags_comparisonOred d o s⟩

/-- Settles O42: ADD in both forms is `addOp_sumWritten`. -/
theorem addWritesSumAndCarryInPhaseThree : Obligations.AddWritesSumAndCarryInPhaseThree := by
  intro d b s phase
  exact ⟨addOp_sumWritten phase d (.reg b), addOp_sumWritten phase d (.imm b)⟩

/-- Settles O43: ADC in both forms is `adcOp_sumWritten`. -/
theorem adcWritesSumWithCarryInPhaseThree : Obligations.AdcWritesSumWithCarryInPhaseThree := by
  intro d b s phase
  exact ⟨adcOp_sumWritten phase d (.reg b), adcOp_sumWritten phase d (.imm b)⟩

/-- Settles O44: in phase 4 ADD and ADC are the same comparison. -/
theorem addAndAdcOrComparisonInPhaseFour : Obligations.AddAndAdcOrComparisonInPhaseFour := by
  intro d b s phase
  exact ⟨addOp_comparisonOred phase d (.reg b), addOp_comparisonOred phase d (.imm b),
    adcOp_comparisonOred phase d (.reg b), adcOp_comparisonOred phase d (.imm b)⟩

/-- The comparison bits leave CARRY alone. -/
theorem comparison_carry (a b : Byte) : (comparison a b).getLsbD 0 = false := by
  unfold comparison
  split
  · rfl
  · split <;> rfl

theorem carryOf_carry (n : Nat) : (carryOf n).getLsbD 0 = decide (255 < n) := by
  unfold carryOf
  split
  case isTrue exceeds => rw [decide_eq_true exceeds]; rfl
  case isFalse fits => rw [decide_eq_false fits]; rfl

/-- What phase 4 reads as second operand, from what phase 3 wrote to the destination and to F. -/
theorem operandVal_eq_reread {s t : State} {q : Reg} {v f : Byte} (dest : t.regs.get q = v) (flags : t.regs.f = f)
    (frame : ∀ r : Reg, r ≠ q → r ≠ .F → t.regs.get r = s.regs.get r) (o : Operand) :
    operandVal t o = reread s q v f o := by
  cases o with
  | imm i => rfl
  | reg c =>
    simp only [operandVal, reread]
    cases named : namedReg c with
    | none => simp [regVal_of_invalid named]
    | some r =>
      rw [regVal_of_valid named, regVal_of_valid named]
      by_cases isDest : r = q
      · rw [isDest, if_pos rfl, dest]
      · rw [if_neg (by simpa using isDest)]
        by_cases isF : r = .F
        · rw [isF, if_pos rfl]; exact flags
        · rw [if_neg (by simpa using isF), frame r isDest isF]

/-- The law of both phases, from what each of them leaves. -/
theorem sumLaw_of_phases {c : Nat} {d : Byte} {q : Reg} {o : Operand} {s t u : State} (named : namedReg d = some q)
    (notF : q ≠ .F) (arith : SumWritten c d o s t) (flags : ComparisonOred d o t u) : SumLaw c q o s u := by
  obtain ⟨written, carry, -⟩ := arith
  obtain ⟨ored, -⟩ := flags
  rw [regVal_of_valid named] at written carry
  rw [if_neg (by simpa [named] using notF)] at carry
  have dest := (written q notF).trans (if_pos named)
  have frame : ∀ r : Reg, r ≠ q → r ≠ .F → t.regs.get r = s.regs.get r := fun r other notF =>
    (written r notF).trans (if_neg (by simpa [named] using other.symm))
  have compared := ored .F
  rw [if_pos rfl, regVal_of_valid named, dest, carry, operandVal_eq_reread dest carry frame o] at compared
  refine ⟨((ored q).trans (if_neg notF)).trans dest, ?carryLaw, compared, fun r other notF => ?unchanged⟩
  case carryLaw =>
    have bit := congrArg (BitVec.getLsbD · 0) compared
    simp only [BitVec.getLsbD_or, comparison_carry, carryOf_carry, Bool.or_false] at bit
    exact bit
  case unchanged => exact ((ored r).trans (if_neg notF)).trans (frame r other notF)

theorem addOp_sumLaw {d : Byte} {q : Reg} {s : State} (phase : s.phase = .p3) (named : namedReg d = some q)
    (notF : q ≠ .F) (o : Operand) :
    ∃ t u, addOp Config.params d o s = .next t ∧ addOp Config.params d o t = .next u ∧ SumLaw 0 q o s u := by
  obtain ⟨t, three, arith⟩ := addOp_sumWritten phase d o
  have ⟨_, _, _, phase_t, _⟩ := arith
  obtain ⟨u, four, flags⟩ := addOp_comparisonOred phase_t d o
  exact ⟨t, u, three, four, sumLaw_of_phases named notF arith flags⟩

theorem adcOp_sumLaw {d : Byte} {q : Reg} {s : State} (phase : s.phase = .p3) (named : namedReg d = some q)
    (notF : q ≠ .F) (o : Operand) :
    ∃ t u, adcOp Config.params d o s = .next t ∧ adcOp Config.params d o t = .next u ∧
      SumLaw (carryBit s) q o s u := by
  obtain ⟨t, three, arith⟩ := adcOp_sumWritten phase d o
  have ⟨_, _, _, phase_t, _⟩ := arith
  obtain ⟨u, four, flags⟩ := adcOp_comparisonOred phase_t d o
  exact ⟨t, u, three, four, sumLaw_of_phases named notF arith flags⟩

/-- Settles O45: the laws of phase 3 and phase 4, put together by `sumLaw_of_phases`. -/
theorem addAndAdcArithmeticLaws : Obligations.AddAndAdcArithmeticLaws := by
  intro d b q s phase named notF
  exact ⟨addOp_sumLaw phase named notF (.reg b), addOp_sumLaw phase named notF (.imm b),
    adcOp_sumLaw phase named notF (.reg b), adcOp_sumLaw phase named notF (.imm b)⟩

end Sys2Proof.Machine
end

section
/-! The machine at other parameter values (00_scope.md R7): the held operands of `pre_write`, the `postdec_push` stack, the
other effects of a write to ROM, the invalid operand bytes. -/

namespace Sys2Proof.Machine

/-- A register read may add to the anomaly record and does nothing else, at any parameter values. -/
theorem readReg_snd (p : Params) (c : Byte) (s : State) : ∃ notes, (readReg p c s).2 = s.addNotes notes := by
  unfold readReg
  cases regNamed p c with
  | some r => exact ⟨[], (addNotes_nil s).symm⟩
  | none => exact ⟨[⟨.invalidRegisterRead, c, s.pc, s.phase⟩], rfl⟩

/-- The value read does not depend on the anomaly record. -/
theorem readReg_addNotes_fst (p : Params) (c : Byte) (s : State) (notes : List Anomaly) :
    (readReg p c (s.addNotes notes)).1 = (readReg p c s).1 := by
  unfold readReg
  cases regNamed p c <;> rfl

theorem readOperand_snd (p : Params) (o : Operand) (s : State) : ∃ notes, (readOperand p o s).2 = s.addNotes notes := by
  cases o with
  | reg c => exact readReg_snd p (operandCode p c) s
  | imm i => exact ⟨[], (addNotes_nil s).symm⟩

theorem readOperand_addNotes_fst (p : Params) (o : Operand) (s : State) (notes : List Anomaly) :
    (readOperand p o (s.addNotes notes)).1 = (readOperand p o s).1 := by
  cases o with
  | reg c => exact readReg_addNotes_fst p (operandCode p c) s notes
  | imm i => rfl

section

variable {p : Params} (pre : p.addCmp = .preWrite) (d : Byte) (o : Operand) (s : State)
include pre

/-- Under `pre_write` phase 3 holds the operands as it read them. -/
theorem addArith_held (c : Nat) :
    (addArith p c d o s).addA = (readOperandReg p d s).1 ∧ (addArith p c d o s).addB = (readOperand p o s).1 := by
  obtain ⟨notes, first⟩ := readReg_snd p (operandCode p d) s
  have second := readOperand_addNotes_fst p o s notes
  rw [← first] at second
  rw [addArith, holdAddends, pre]
  exact ⟨rfl, second⟩

/-- Under `pre_write` phase 4 reads no register. -/
theorem addFlags_held : addFlags p d o s = s.orF (cmpbits p s.addA s.addB) := by
  rw [addFlags, pre]

/-- Both phases under `pre_write`, for a meaning that is the arithmetic outside phase 4 and the comparison in it. -/
theorem preWrite_phases {ex : State → Host.Outcome State Fault Refusal} {c : Nat}
    (arith : ex s = .next ((addArith p c d o s).at .p4))
    (flags : ∀ t : State, t.phase = .p4 → ex t = .next ((addFlags p d o t).at .p0)) :
    ∃ t u, ex s = .next t ∧ ex t = .next u ∧
      u.regs.f = t.regs.f ||| cmpbits p (readOperandReg p d s).1 (readOperand p o s).1 ∧
      (∀ r : Reg, r ≠ .F → u.regs.get r = t.regs.get r) ∧ u.anomalies = t.anomalies ∧ u.phase = .p0 := by
  obtain ⟨heldA, heldB⟩ := addArith_held pre d o s c
  have four := flags ((addArith p c d o s).at .p4) rfl
  rw [addFlags_held pre] at four
  refine ⟨_, _, arith, four, ?_, fun r other => (orF_get _ _ r).trans (if_neg other), rfl, rfl⟩
  rw [← heldA, ← heldB]
  rfl

end

/-- Settles O50: each of the four forms is `addOp` or `adcOp`, whose two phases are `preWrite_phases`. -/
theorem preWriteComparesHeldOperands : Obligations.PreWriteComparesHeldOperands := by
  intro p d b s i o pre phase form
  have three := phase_three_ne_four phase
  simp only [List.mem_cons, Prod.mk.injEq, List.not_mem_nil, or_false] at form
  rcases form with ⟨rfl, rfl⟩ | ⟨rfl, rfl⟩ | ⟨rfl, rfl⟩ | ⟨rfl, rfl⟩
  case inl | inr.inl =>
    exact preWrite_phases pre d _ s (addOp_of_phase_ne_four d _ three) fun _ => addOp_of_phase_four d _
  case inr.inr.inl | inr.inr.inr =>
    exact preWrite_phases pre d _ s (adcOp_of_phase_ne_four d _ three) fun _ => adcOp_of_phase_four d _

/-- SP after a core write, with the mirror addresses of the parameters (20_memory.md R58). -/
def mirroredAt (p : Params) (a : Addr) (v : Byte) (sp : Addr) : Addr :=
  if a = p.splAddr then joinBytes (hiByte sp) v else if a = p.sphAddr then joinBytes v (loByte sp) else sp

/-- With two mirror addresses in the I/O window a write outside ROM is the store with its mirror, at any parameter values. -/
theorem memWrite_of_wfMap {p : Params} (map : p.wfMap = true) {a : Addr} (ram : ¬ a < p.ramBase) (v : Byte) (s : State) :
    memWrite p a v s = .ok ((s.setByte a v).setSp (mirroredAt p a v s.sp)) := by
  simp only [Params.wfMap, Bool.and_eq_true, decide_eq_true_eq, bne_iff_ne] at map
  obtain ⟨⟨⟨-, splIo⟩, sphIo⟩, distinct⟩ := map
  have other : ∀ {b : Addr}, b ≠ p.splAddr → b ≠ p.sphAddr → (s.setByte b v).setSp (mirroredAt p b v s.sp) =
      s.setByte b v := by
    intro b notSpl notSph
    rw [mirroredAt, if_neg notSpl, if_neg notSph, ← setByte_sp s b v, setSp_self]
  by_cases io : a < p.ioBase
  case pos =>
    rw [memWrite_ram ram io, other]
    · rintro rfl; exact BitVec.not_lt.2 splIo io
    · rintro rfl; exact BitVec.not_lt.2 sphIo io
  case neg =>
    rw [memWrite_io ram io]
    by_cases isSpl : a = p.splAddr
    · rw [isSpl, ioResponse_spl distinct, mirroredAt, if_pos rfl]
      simp [State.setSp, State.sp]
    · by_cases isSph : a = p.sphAddr
      · rw [isSph, ioResponse_sph distinct, mirroredAt, if_neg distinct.symm, if_pos rfl]
        simp [State.setSp, State.sp]
      · rw [ioResponse_other isSpl isSph, other isSpl isSph]

section

variable {p : Params} {s : State}

/-- PUSH under `postdec_push` outside ROM: the store with its mirror, and then the decrement. -/
theorem pushOp_postdec (stack : p.stack = .postdecPush) (map : p.wfMap = true) (wf : s.mem.wf = true) (o : Operand)
    (ram : ¬ s.sp < p.ramBase) :
    ∃ t, pushOp p o s = .next t ∧
      memRead s.sp t = (readOperand p o s).1 ∧ SameMemoryBut s.sp s t ∧
      t.sp = mirroredAt p s.sp (readOperand p o s).1 s.sp - 1 ∧
      t.anomalies = (readOperand p o s).2.anomalies ∧ SameRegs s t ∧ t.pc = s.pc ∧ SameHidden s t ∧
      SameStop s t ∧ t.phase = .p0 := by
  obtain ⟨notes, read⟩ := readOperand_snd p o s
  simp only [pushOp, pushByte, pushAddr, stack, read, addNotes_sp, memWrite_of_wfMap map ram, setSp_sp, endPhase_ok]
  exact ⟨_, rfl, memRead_setByte_self wf _ _, fun _ other => memRead_setByte_ne other _ s, joinBytes_hi_lo _, rfl,
    fun _ => rfl, rfl, ⟨rfl, rfl, rfl, rfl, rfl, rfl, rfl⟩, ⟨rfl, rfl⟩, rfl⟩

/-- PUSH under `postdec_push` into ROM: the write aborts and SP has not moved yet. -/
theorem pushOp_postdec_aborts (stack : p.stack = .postdecPush) (o : Operand) (rom : s.sp < p.ramBase)
    (policy : p.romWrite = .abort) :
    ∃ t, pushOp p o s = .next t ∧ AbortedWith (.romWrite s.sp) s t ∧ t.sp = s.sp ∧
      t.anomalies = (readOperand p o s).2.anomalies := by
  obtain ⟨notes, read⟩ := readOperand_snd p o s
  simp only [pushOp, pushByte, pushAddr, stack, read, addNotes_sp, memWrite_rom rom policy, endPhase_error]
  exact ⟨_, rfl, abortedWith_update s _ _ _ _, rfl, rfl⟩

/-- A register write at any parameter values. -/
theorem writeOperandReg_get (c v : Byte) (s : State) (r : Reg) :
    (writeOperandReg p c v s).regs.get r = if regNamed p (operandCode p c) = some r then v else s.regs.get r := by
  unfold writeOperandReg writeReg
  cases regNamed p (operandCode p c) with
  | none => simp
  | some q => simp [eq_comm]

theorem writeOperandReg_frame (c v : Byte) (s : State) :
    ∃ regs, writeOperandReg p c v s = { s with
      regs := regs
      anomalies := s.anomalies ++ if regNamed p (operandCode p c) = none then
        [⟨.invalidRegisterWrite, operandCode p c, s.pc, s.phase⟩] else [] } := by
  unfold writeOperandReg writeReg
  cases regNamed p (operandCode p c) with
  | none => exact ⟨s.regs, rfl⟩
  | some q => exact ⟨s.regs.set q v, by simp [State.setReg]⟩

end

/-- Settles O51: PUSH by its two outcomes, and POP reads above SP before it writes. -/
theorem postdecrementStackDiscipline : Obligations.PostdecrementStackDiscipline := by
  intro p b s stack map wf
  have addr : pushAddr p s = s.sp := by rw [pushAddr, stack]
  have above : popAddr p s = s.sp + 1 := by rw [popAddr, stack]
  rw [addr]
  refine ⟨fun i o form => ?push, rfl, ?pop⟩
  case push =>
    have meaning : execWith p i s = pushOp p o s := by
      simp only [List.mem_cons, Prod.mk.injEq, List.not_mem_nil, or_false] at form
      rcases form with ⟨rfl, rfl⟩ | ⟨rfl, rfl⟩ <;> rfl
    have halves : mirroredAt p s.sp (readOperand p o s).1 s.sp =
        if s.sp = p.splAddr then joinBytes s.sph (readOperand p o s).1
        else if s.sp = p.sphAddr then joinBytes (readOperand p o s).1 s.spl else s.sp := by
      rw [mirroredAt, show hiByte s.sp = s.sph from hiByte_joinBytes .., show loByte s.sp = s.spl from loByte_joinBytes ..]
    rw [meaning, ← halves]
    exact ⟨pushOp_postdec stack map wf o, pushOp_postdec_aborts stack o⟩
  case pop =>
    have written := writeOperandReg_get (p := p) b (memRead (s.sp + 1) s) (s.setSp (s.sp + 1))
    obtain ⟨regs, frame⟩ := writeOperandReg_frame (p := p) b (memRead (s.sp + 1) s) (s.setSp (s.sp + 1))
    rw [frame] at written
    simp only [execWith, popOp, above, frame, endPhase_ok]
    exact ⟨_, rfl, joinBytes_hi_lo _, written, rfl, fun _ => rfl, rfl, ⟨rfl, rfl, rfl, rfl, rfl, rfl, rfl⟩, ⟨rfl, rfl⟩,
      rfl⟩

/-- Settles O52: below `ramBase` the policy alone decides, and `store` is the plain store. -/
theorem romWritePoliciesDiscardAndStore : Obligations.RomWritePoliciesDiscardAndStore := by
  intro p a v s rom wf
  constructor
  case left =>
    intro policy
    simp only [memWrite, if_pos rom, policy]
  case right =>
    intro policy
    refine ⟨s.setByte a v, ?_, memRead_setByte_self wf a v, sameMemoryBut_setByte a v s, setByte_frame a v s⟩
    simp only [memWrite, if_pos rom, policy]

theorem namedReg_eq_none_iff (c : Byte) : namedReg c = none ↔ 7 ≤ c.toNat := by
  constructor
  case mp =>
    contrapose!
    intro small
    have cases : c = 0 ∨ c = 1 ∨ c = 2 ∨ c = 3 ∨ c = 4 ∨ c = 5 ∨ c = 6 := by bv_omega
    rcases cases with rfl | rfl | rfl | rfl | rfl | rfl | rfl <;> simp [namedReg]
  case mpr =>
    intro large
    have ne : ∀ k : Byte, k.toNat < 7 → c ≠ k := by rintro k small rfl; omega
    simp [namedReg, ne]

/-- Which register a code names depends on the codes of the registers alone. -/
theorem regNamed_of_default_codes {p : Params} (codes : p.regCode = Params.default.regCode) (c : Byte) :
    regNamed p c = namedReg c := by
  rw [← regNamed_params]
  simp only [regNamed, codes, Config.params]

/-- Settles O53: a code names no register from 7 on, and under `low3` the code has three bits. -/
theorem invalidOperandBytes : Obligations.InvalidOperandBytes := by
  refine ⟨fun b => ?fullByte, fun p _ codes low b => ?low3⟩
  case fullByte => rw [regNamed_params, namedReg_eq_none_iff, operandCode_params]
  case low3 =>
    have code : operandCode p b = b &&& 7 := by rw [operandCode, low]
    have bound : (b &&& 7).toNat ≤ 7 := by rw [BitVec.toNat_and]; exact Nat.and_le_right
    rw [regNamed_of_default_codes codes, namedReg_eq_none_iff, code]
    constructor
    · intro seven
      exact BitVec.eq_of_toNat_eq (Nat.le_antisymm bound seven)
    · intro seven
      rw [seven]
      decide

/-- Settles O49: `step` is `stepWith` at the defaults, since `execWith` there is `exec`. -/
theorem parametricStepAtDefaultsIsStep : Obligations.ParametricStepAtDefaultsIsStep := by
  intro s
  have meaning : execWith Params.default = exec := funext fun i => funext (execWith_params i)
  rw [stepWith, meaning]
  rfl

end Sys2Proof.Machine
end

section
/-! A register write and a core write to the I/O window (10_state.md R24, 20_memory.md R57, R58). -/

namespace Sys2Proof.Machine

/-- Settles O30: the write changes the register file by `RegFile.setCode` and the record by `writeNote`. -/
theorem registerWriteSetsOneOrIsDiscarded : Obligations.RegisterWriteSetsOneOrIsDiscarded := by
  intro c v s
  rw [writeReg_params]
  exact ⟨RegFile.get_setCode s.regs c v, rfl, rfl⟩

theorem mirrored_halves (a : Addr) (v : Byte) (s : State) :
    loByte (mirrored a v s.sp) = (if a = 0xFFFE then v else s.spl) ∧
      hiByte (mirrored a v s.sp) = (if a = 0xFFFF then v else s.sph) := by
  by_cases isSpl : a = 0xFFFE
  case pos =>
    subst isSpl
    rw [mirrored_spl]
    exact ⟨loByte_joinBytes .., (hiByte_joinBytes ..).trans (hiByte_joinBytes ..)⟩
  by_cases isSph : a = 0xFFFF
  case pos =>
    subst isSph
    rw [mirrored_sph]
    exact ⟨(loByte_joinBytes ..).trans (loByte_joinBytes ..), hiByte_joinBytes ..⟩
  case neg =>
    rw [mirrored_other isSpl isSph, if_neg isSpl, if_neg isSph]
    exact ⟨loByte_joinBytes .., hiByte_joinBytes ..⟩

/-- Settles O32: the write is the store with its mirror, which sets the half of SP whose address was written. -/
theorem coreWriteToIoStoresAndMirrors : Obligations.CoreWriteToIoStoresAndMirrors := by
  intro a v s wf io
  obtain ⟨low, high⟩ := mirrored_halves a v s
  exact ⟨_, memWrite_params_of_not_rom (by omega) v s, memRead_setByte_self wf a v, sameMemoryBut_setByte a v s, low, high,
    rfl⟩

end Sys2Proof.Machine
end

section
/-! The host between steps (20_memory.md R72, R73, 10_state.md R40, 60_exceptions.md R203). -/

namespace Sys2Proof.Machine

theorem hostWrite_of_ne {a : Addr} (notSpl : a ≠ 0xFFFE) (notSph : a ≠ 0xFFFF) (v : Byte) (s : State) :
    hostWrite Config.params a v s = some (s.setByte a v) := if_neg (not_or.2 ⟨notSpl, notSph⟩)

/-- Settles O54: off the mirror addresses the move is the plain store, on them there is none. -/
theorem hostWriteChangesOneByte : Obligations.HostWriteChangesOneByte := by
  intro a v s wf
  refine ⟨fun notSpl notSph => ?_, fun mirror => if_pos mirror⟩
  exact ⟨_, hostWrite_of_ne notSpl notSph v s, memRead_setByte_self wf a v, sameMemoryBut_setByte a v s,
    setByte_frame a v s⟩

theorem addr_toNat_ofNat {n : Nat} (small : n < 65536) : (BitVec.ofNat 16 n).toNat = n :=
  (BitVec.toNat_ofNat n 16).trans (Nat.mod_eq_of_lt small)

/-- A state that differs from a store only in memory differs from the state before the store only there. -/
theorem frame_of_setByte {a : Addr} {v : Byte} {s t : State} (h : { t with mem := (s.setByte a v).mem } = s.setByte a v) :
    { t with mem := s.mem } = s := congrArg (fun u : State => { u with mem := s.mem }) h

/-- What a run of host writes from address `n` on leaves: the bytes in order, the other bytes as they were, canonical
memory, and no other field changed. -/
structure Placed (n : Nat) (image : List Byte) (s t : State) : Prop where
  read : ∀ (k : Nat) (h : k < image.length), memRead (BitVec.ofNat 16 (n + k)) t = image[k]
  other : ∀ a : Addr, a.toNat < n ∨ n + image.length ≤ a.toNat → memRead a t = memRead a s
  wf : t.mem.wf = true
  frame : { t with mem := s.mem } = s

theorem Placed.nil {s : State} (wf : s.mem.wf = true) (n : Nat) : Placed n [] s s :=
  ⟨fun _ h => absurd h (Nat.not_lt_zero _), fun _ _ => rfl, wf, rfl⟩

/-- The first byte is not written again by the writes after it. -/
theorem Placed.cons {n : Nat} {v : Byte} {vs : List Byte} {s t : State} (wf : s.mem.wf = true) (small : n < 65536)
    (h : Placed (n + 1) vs (s.setByte (BitVec.ofNat 16 n) v) t) : Placed n (v :: vs) s t := by
  have first : (BitVec.ofNat 16 n).toNat = n := addr_toNat_ofNat small
  refine ⟨fun k inside => ?read, fun a outside => ?other, h.wf, frame_of_setByte h.frame⟩
  case read =>
    cases k with
    | zero => exact (h.other _ (.inl (by simp only [Nat.add_zero]; omega))).trans (memRead_setByte_self wf _ v)
    | succ k =>
      have rest := h.read k (Nat.lt_of_succ_lt_succ inside)
      rwa [Nat.add_right_comm] at rest
  case other =>
    rw [List.length_cons] at outside
    have ne : a ≠ BitVec.ofNat 16 n := by rintro rfl; omega
    exact (h.other a (by omega)).trans (memRead_setByte_ne ne v s)

/-- Host writes below the mirror addresses all are moves. -/
theorem hostWriteAll_placed (image : List Byte) {n : Nat} {s : State} (wf : s.mem.wf = true)
    (fits : n + image.length ≤ 0xFFFE) :
    ∃ t, hostWriteAll Config.params (BitVec.ofNat 16 n) image s = some t ∧ Placed n image s t := by
  induction image generalizing n s with
  | nil => exact ⟨s, rfl, .nil wf n⟩
  | cons v vs ih =>
    rw [List.length_cons] at fits
    have first : (BitVec.ofNat 16 n).toNat = n := addr_toNat_ofNat (by omega)
    have notMirror : ∀ m : Addr, 0xFFFE ≤ m.toNat → BitVec.ofNat 16 n ≠ m := by rintro m high rfl; omega
    have move := hostWrite_of_ne (notMirror 0xFFFE (by decide)) (notMirror 0xFFFF (by decide)) v s
    obtain ⟨t, rest, placed⟩ := ih (n := n + 1) (setByte_wf wf (BitVec.ofNat 16 n) v) (by omega)
    refine ⟨t, ?_, placed.cons wf (by omega)⟩
    rw [hostWriteAll, move]
    rwa [BitVec.ofNat_add] at rest

/-- Settles O55: the load is a run of host writes from 0x8000 on, by `hostWriteAll_placed`. -/
theorem loadImagePlacesItsBytes : Obligations.LoadImagePlacesItsBytes := by
  intro image s wf fits
  obtain ⟨t, load, placed⟩ := hostWriteAll_placed image wf fits
  exact ⟨t, load, placed.read, placed.other, placed.wf, placed.frame⟩

/-- What a host move other than reset keeps. -/
structure MemoryMove (s t : State) : Prop where
  frame : { t with mem := s.mem } = s
  readout : hostReadout t = hostReadout s
  spl : memRead 0xFFFE t = memRead 0xFFFE s
  sph : memRead 0xFFFF t = memRead 0xFFFF s
  wf : s.mem.wf = true → t.mem.wf = true

theorem MemoryMove.refl (s : State) : MemoryMove s s := ⟨rfl, rfl, rfl, rfl, id⟩

theorem MemoryMove.setByte_trans {a : Addr} {v : Byte} {s t : State} (notSpl : a ≠ 0xFFFE) (notSph : a ≠ 0xFFFF)
    (h : MemoryMove (s.setByte a v) t) : MemoryMove s t :=
  ⟨frame_of_setByte h.frame, h.readout, h.spl.trans (memRead_setByte_ne notSpl.symm v s),
    h.sph.trans (memRead_setByte_ne notSph.symm v s), fun wf => h.wf (setByte_wf wf a v)⟩

theorem hostWriteAll_memoryMove {image : List Byte} {a : Addr} {s t : State}
    (h : hostWriteAll Config.params a image s = some t) : MemoryMove s t := by
  induction image generalizing a s with
  | nil => cases h; exact .refl _
  | cons v vs ih =>
    obtain ⟨notSpl, notSph, rest⟩ := hostWriteAll_cons h
    exact (ih rest).setByte_trans notSpl notSph

theorem hostMove_memoryMove {m : HostMove} {s t : State} (h : hostMove Config.params m s = some t) (other : m ≠ .reset) :
    MemoryMove s t := by
  cases m with
  | write a v =>
    obtain ⟨rfl, notSpl, notSph⟩ := hostWrite_eq_some h
    exact (MemoryMove.refl _).setByte_trans notSpl notSph
  | load image => exact hostWriteAll_memoryMove h
  | reset => exact absurd rfl other

/-- A move that changes memory alone keeps the invariant, which says of memory only that it is canonical. -/
theorem MemoryMove.inv {s t : State} (h : MemoryMove s t) (inv : s.Inv) : t.Inv := by
  obtain ⟨wf, stop, fits⟩ := inv
  rw [← h.frame] at stop fits
  exact ⟨h.wf wf, stop, fits⟩

/-- Settles O17: memory is empty, nothing is recorded, and phase 0 fits any IR. -/
theorem resetMeetsTheInvariant : Obligations.ResetMeetsTheInvariant := ⟨rfl, rfl, rfl⟩

/-- Settles O16: every field of the state after reset is written out in `State.reset`. -/
theorem resetLeavesEverythingZero : Obligations.ResetLeavesEverythingZero := by
  intro s
  have zero : joinBytes 0 0 = 0 := by decide
  exact ⟨fun r => by cases r <;> rfl, zero, zero, rfl, rfl, rfl, rfl, rfl, fun _ => rfl, rfl, rfl, rfl, rfl, rfl, rfl, rfl⟩

/-- Settles O58: a move other than reset is a `MemoryMove`, and reset meets the invariant. -/
theorem hostMovesWriteMemoryOrReset : Obligations.HostMovesWriteMemoryOrReset := by
  intro m s t move
  by_cases reset : m = .reset
  case pos =>
    subst reset
    cases move
    exact ⟨fun _ => rfl, fun other => absurd rfl other, fun _ => resetMeetsTheInvariant⟩
  case neg =>
    have kept := hostMove_memoryMove move reset
    exact ⟨fun h => absurd h reset, fun _ => ⟨kept.frame, kept.readout, kept.spl, kept.sph⟩, kept.inv⟩

/-- Beyond the address space a canonical memory lists nothing. -/
theorem Memory.read_of_outside {m : Memory} {lo : Option Nat} (h : Memory.wfAbove lo m = true) {a : Nat}
    (outside : 65536 ≤ a) : Memory.read m a = Memory.unlisted := by
  induction m generalizing lo with
  | nil => rfl
  | cons cell m ih =>
    obtain ⟨-, inside, -, rest⟩ := Memory.wfAbove_cons_iff.1 h
    rw [Memory.read, if_neg (by omega), ih rest]

/-- Canonical memories are equal when every address reads alike. -/
theorem Memory.ext_of_wf {m n : Memory} (hm : m.wf = true) (hn : n.wf = true)
    (h : ∀ a : Addr, m.read a.toNat = n.read a.toNat) : m = n := by
  refine Memory.ext_of_wfAbove hm hn fun a => ?_
  by_cases inside : a < 65536
  case pos =>
    have read := h (BitVec.ofNat 16 a)
    rwa [addr_toNat_ofNat inside] at read
  case neg =>
    have outside := Nat.not_lt.1 inside
    rw [Memory.read_of_outside hm outside, Memory.read_of_outside hn outside]

theorem joinBytes_inj {h l h' l' : Byte} : joinBytes h l = joinBytes h' l' ↔ h = h' ∧ l = l' := by
  constructor
  case mp =>
    intro e
    exact ⟨by simpa using congrArg hiByte e, by simpa using congrArg loByte e⟩
  case mpr =>
    rintro ⟨rfl, rfl⟩
    rfl

/-- Settles O59: the readout fixes the registers, and the bytes read fix a canonical memory. -/
theorem hostReadsTheWholeState : Obligations.HostReadsTheWholeState := by
  intro s t wf_s wf_t readout bytes fault anomalies events heldA heldB
  have mem : s.mem = t.mem := Memory.ext_of_wf wf_s wf_t bytes
  cases s
  cases t
  simp only [hostReadout, Readout.mk.injEq, State.pc, State.sp, joinBytes_inj] at readout
  obtain ⟨rfl, ⟨rfl, rfl⟩, ⟨rfl, rfl⟩, rfl, rfl, rfl, rfl, rfl, rfl⟩ := readout
  cases mem
  cases fault
  cases anomalies
  cases events
  cases heldA
  cases heldB
  rfl

end Sys2Proof.Machine
end

section
/-! The end of a run (43_control.md R174). -/

namespace Sys2Proof.Machine

/-- A run to its first end state: `k` steps lead to `t`, which is at `e`, and no state before it is. -/
def EndsAfter (e : Addr) (k : Nat) (s t : State) : Prop :=
  runFor k s = .next t ∧ t.phase = .p0 ∧ t.pc = e ∧ ∀ j u, j < k → runFor j s = .next u → ¬ (u.phase = .p0 ∧ u.pc = e)

theorem runFor_succ_of_next {s u : State} (h : step s = .next u) (k : Nat) : runFor (k + 1) s = runFor k u := by
  rw [runFor, h]

theorem exists_step_of_runFor_succ {k : Nat} {s t : State} (h : runFor (k + 1) s = .next t) : ∃ u, step s = .next u := by
  rw [runFor] at h
  cases next : step s with
  | next u => exact ⟨u, rfl⟩
  | fault r => rw [next] at h; cases h
  | refused r => rw [next] at h; cases h

/-- From a state at `e` the run ends before the first step. -/
theorem endsAfter_iff_of_atEnd {e : Addr} {s : State} (h : s.atEnd e) (k : Nat) (t : State) :
    EndsAfter e k s t ↔ k = 0 ∧ t = s := by
  constructor
  case mp =>
    rintro ⟨run, -, -, first⟩
    have zero : k = 0 := Nat.eq_zero_of_not_pos fun pos => first 0 s pos rfl h
    subst zero
    cases run
    exact ⟨rfl, rfl⟩
  case mpr =>
    rintro ⟨rfl, rfl⟩
    exact ⟨rfl, h.1, h.2, fun j _ neg => absurd neg (Nat.not_lt_zero j)⟩

theorem not_endsAfter_zero {e : Addr} {s t : State} (h : ¬ s.atEnd e) : ¬ EndsAfter e 0 s t := by
  rintro ⟨run, phase, pc, -⟩
  cases run
  exact h ⟨phase, pc⟩

/-- From any other state the run goes on with the next step. -/
theorem endsAfter_succ_iff {e : Addr} {s u : State} (h : ¬ s.atEnd e) (next : step s = .next u) (k : Nat) (t : State) :
    EndsAfter e (k + 1) s t ↔ EndsAfter e k u t := by
  unfold EndsAfter
  rw [runFor_succ_of_next next]
  refine and_congr_right fun _ => and_congr_right fun _ => and_congr_right fun _ => ⟨fun first j w below run => ?_, ?_⟩
  · exact first (j + 1) w (Nat.succ_lt_succ below) ((runFor_succ_of_next next j).trans run)
  · intro first j w below run
    cases j with
    | zero => cases run; exact h
    | succ j => exact first j w (Nat.lt_of_succ_lt_succ below) ((runFor_succ_of_next next j).symm.trans run)

/-- Settles O60, by induction on the bound: at `e` the run has ended, elsewhere it goes on with the next step or, where
there is none, does not end. -/
theorem endOfRunIsTheFirstEndState : Obligations.EndOfRunIsTheFirstEndState := by
  suffices ends : ∀ (e : Addr) (n : Nat) (s t : State), endOfRun e n s = some t ↔ ∃ k, k ≤ n ∧ EndsAfter e k s t from ends
  intro e n
  induction n with
  | zero =>
    intro s t
    by_cases atEnd : s.atEnd e
    case pos => simp [endOfRun_of_atEnd atEnd, endsAfter_iff_of_atEnd atEnd, eq_comm]
    case neg => simp [endOfRun_zero_of_not_atEnd atEnd, not_endsAfter_zero atEnd]
  | succ n ih =>
    intro s t
    by_cases atEnd : s.atEnd e
    case pos => simp [endOfRun_of_atEnd atEnd, endsAfter_iff_of_atEnd atEnd, eq_comm]
    case neg =>
      cases next : step s with
      | next u =>
        rw [endOfRun_succ_of_next atEnd next, ih]
        constructor
        · rintro ⟨k, bound, ends⟩
          exact ⟨k + 1, Nat.succ_le_succ bound, (endsAfter_succ_iff atEnd next k t).2 ends⟩
        · rintro ⟨k, bound, ends⟩
          cases k with
          | zero => exact absurd ends (not_endsAfter_zero atEnd)
          | succ k => exact ⟨k, Nat.le_of_succ_le_succ bound, (endsAfter_succ_iff atEnd next k t).1 ends⟩
      | fault r | refused r =>
        have stuck : endOfRun e (n + 1) s = none := by rw [endOfRun, if_neg atEnd, next]
        rw [stuck]
        refine ⟨nofun, ?_⟩
        rintro ⟨k, -, ends⟩
        cases k with
        | zero => exact absurd ends (not_endsAfter_zero atEnd)
        | succ k =>
          obtain ⟨u, other⟩ := exists_step_of_runFor_succ ends.1
          rw [next] at other
          cases other

end Sys2Proof.Machine
end

section
/-! The expansions of the pseudo-instructions (44_pseudo.md R180 to R196). -/

namespace Sys2Proof.Machine

theorem encode_length (p : Params) (i : Instr) : (encode p i).length = i.length := by
  cases i with
  | movRR d s => exact Laws.EncodeLength.movRR d s p
  | movRI d i => exact Laws.EncodeLength.movRI d i p
  | addRR d s => exact Laws.EncodeLength.addRR d s p
  | addRI d i => exact Laws.EncodeLength.addRI d i p
  | adcRR d s => exact Laws.EncodeLength.adcRR d s p
  | adcRI d i => exact Laws.EncodeLength.adcRI d i p
  | andRR d s => exact Laws.EncodeLength.andRR d s p
  | andRI d i => exact Laws.EncodeLength.andRI d i p
  | norRR d s => exact Laws.EncodeLength.norRR d s p
  | norRI d i => exact Laws.EncodeLength.norRI d i p
  | cmpRR a s => exact Laws.EncodeLength.cmpRR a s p
  | cmpRI a i => exact Laws.EncodeLength.cmpRI a i p
  | lwMR r h l => exact Laws.EncodeLength.lwMR r h l p
  | lwMI r h l => exact Laws.EncodeLength.lwMI r h l p
  | swMR r h l => exact Laws.EncodeLength.swMR r h l p
  | swMI r h l => exact Laws.EncodeLength.swMI r h l p
  | lda hi lo => exact Laws.EncodeLength.lda hi lo p
  | pushSR r => exact Laws.EncodeLength.pushSR r p
  | pushSI i => exact Laws.EncodeLength.pushSI i p
  | popD d => exact Laws.EncodeLength.popD d p
  | jnzSR r => exact Laws.EncodeLength.jnzSR r p
  | jnzSI i => exact Laws.EncodeLength.jnzSI i p

/-- The bytes of a sequence are as many as its instructions have together. -/
theorem flatMap_encode_length (p : Params) (is : List Instr) :
    (is.flatMap (encode p)).length = (is.map Instr.length).sum := by
  simp only [List.length_flatMap, encode_length]

/-- Settles O56, by the pseudo-instruction and its form: the expansion is then a list of known rows of the opcode table,
whose lengths and steps add up to the tabled ones. -/
theorem pseudoExpansionsHaveTheirLengths : Obligations.PseudoExpansionsHaveTheirLengths := by
  intro q is expansion
  rw [flatMap_encode_length]
  cases q with
  | jmp t =>
    cases t with
    | abs hi lo => cases expansion; exact ⟨rfl, rfl⟩
    | pair rh rl =>
      rw [expand_jmp_pair] at expansion
      split at expansion
      · cases expansion
      · cases expansion; exact ⟨rfl, rfl⟩
  | jc t | jnc t | call here t => cases t <;> cases expansion <;> exact ⟨rfl, rfl⟩
  | nand d o | compare k d a o => cases o <;> cases expansion <;> exact ⟨rfl, rfl⟩
  | xor d o | xnor d o =>
    rw [Pseudo.expand] at expansion
    split at expansion
    · cases expansion
    · cases o <;> cases expansion <;> exact ⟨rfl, rfl⟩
  | sub d o =>
    cases o with
    | reg r =>
      rw [Pseudo.expand] at expansion
      split at expansion
      · cases expansion
      · cases expansion; exact ⟨rfl, rfl⟩
    | imm i => cases expansion; exact ⟨rfl, rfl⟩
  | not d | ret | nop | inc d | dec d => cases expansion; exact ⟨rfl, rfl⟩

theorem code_of_expand {q : Pseudo} {is : List Instr} (h : q.expand Config.params = some is) :
    q.code = some (is.flatMap (encode Config.params)) := congrArg (Option.map _) h

theorem code_of_rejected {q : Pseudo} (h : q.expand Config.params = none) : q.code = none := congrArg (Option.map _) h

/-- The code of a pseudo-instruction that the assembler rejects under a condition `c` alone. -/
theorem code_of_guarded {q : Pseudo} {c c' : Prop} [Decidable c] [Decidable c'] {is : List Instr} {bytes : List Byte}
    (expand : q.expand Config.params = if c then none else some is) (guard : c ↔ c')
    (encoded : is.flatMap (encode Config.params) = bytes) : q.code = if c' then none else some bytes := by
  subst encoded
  by_cases rejected : c
  · rw [if_pos rejected] at expand
    rw [code_of_rejected expand, if_pos (guard.1 rejected)]
  · rw [if_neg rejected] at expand
    rw [code_of_expand expand, if_neg (mt guard.2 rejected)]

/-- The code of XOR and XNOR of a register (44_pseudo.md R187, R188). -/
theorem expandXor_reg_bytes (d s : Byte) :
    (expandXor Config.params d (.reg s)).flatMap (encode Config.params) =
      [0x01, 0x04, d, 0x0B, 0x04, s, 0x0A, d, s, 0x0B, d, 0x04] := by
  simp [expandXor, norInstr, andInstr]

theorem expandXor_imm_bytes (d i : Byte) :
    (expandXor Config.params d (.imm i)).flatMap (encode Config.params) =
      [0x01, 0x04, d, 0x8B, 0x04, i, 0x8A, d, i, 0x0B, d, 0x04] := by
  simp [expandXor, norInstr, andInstr]

/-- The jump targets (44_pseudo.md R181, R182). -/
theorem loadTarget_abs_bytes (hi lo : Byte) :
    (loadTarget Config.params (.abs hi lo)).flatMap (encode Config.params) = [0x84, hi, lo] := by
  simp [loadTarget]

theorem loadTarget_pair_bytes (rh rl : Byte) :
    (loadTarget Config.params (.pair rh rl)).flatMap (encode Config.params) = [0x01, 0x05, rh, 0x01, 0x04, rl] := by
  simp [loadTarget]

/-- JC isolates CARRY, loads the target and jumps on F (44_pseudo.md R183). -/
theorem expandJc_bytes (t : Target) :
    (expandJc Config.params t).flatMap (encode Config.params) =
      [0x8A, 0x06, 0x01] ++ (loadTarget Config.params t).flatMap (encode Config.params) ++ [0x07, 0x06] := by
  simp [expandJc]

theorem code_jmp_abs (hi lo : Byte) : (Pseudo.jmp (.abs hi lo)).code = some [0x84, hi, lo, 0x87, 0x01] := by
  simp [Pseudo.code, Pseudo.expand, loadTarget]

theorem code_jc (t : Target) :
    (Pseudo.jc t).code =
      some ([0x8A, 0x06, 0x01] ++ (loadTarget Config.params t).flatMap (encode Config.params) ++ [0x07, 0x06]) :=
  (code_of_expand rfl).trans (congrArg some (expandJc_bytes t))

theorem code_jnc (t : Target) :
    (Pseudo.jnc t).code =
      some ([0x0B, 0x06, 0x06, 0x8A, 0x06, 0x01] ++ (loadTarget Config.params t).flatMap (encode Config.params) ++
        [0x07, 0x06]) := by
  rw [code_of_expand rfl, List.flatMap_append, expandJc_bytes]
  simp

theorem code_call (here : Addr) (t : Target) :
    (Pseudo.call here t).code =
      some ([0x85, hiByte (returnAddr here t), 0x85, loByte (returnAddr here t)] ++
        (loadTarget Config.params t).flatMap (encode Config.params) ++ [0x87, 0x01]) := by
  rw [code_of_expand rfl]
  simp

/-- Settles O57, form by form: the targets, XOR and JC have their bytes above, the guarded ones go by `code_of_guarded`, and
each other expansion is a list whose instructions encode by the laws of `encode`. -/
theorem pseudoExpansionsAreTheSpecBytes : Obligations.PseudoExpansionsAreTheSpecBytes := by
  refine ⟨fun hi lo => ?abs, fun rh rl => ?pair, fun d s => ?reg, fun d i => ?imm, fun d a b => ?compare, fun d => ?unary,
    ?ret, ?nop⟩
  case abs =>
    refine ⟨code_jmp_abs hi lo, ?_, ?_, fun here => ?_⟩
    · rw [code_jc, loadTarget_abs_bytes]; rfl
    · rw [code_jnc, loadTarget_abs_bytes]; rfl
    · rw [code_call, loadTarget_abs_bytes]; rfl
  case pair =>
    refine ⟨code_of_guarded (expand_jmp_pair _ rh rl) Iff.rfl (by simp [loadTarget]), ?_, ?_, fun here => ?_⟩
    · rw [code_jc, loadTarget_pair_bytes]; rfl
    · rw [code_jnc, loadTarget_pair_bytes]; rfl
    · rw [code_call, loadTarget_pair_bytes]; rfl
  case reg =>
    have scratch := usesScratch_reg d s
    refine ⟨?_, code_of_guarded rfl scratch (expandXor_reg_bytes d s), code_of_guarded rfl scratch ?_,
      code_of_guarded rfl Iff.rfl ?_⟩
    · rw [code_of_expand rfl]; simp [andInstr]
    · rw [List.flatMap_append, expandXor_reg_bytes]; simp
    · simp
  case imm =>
    have scratch := usesScratch_imm d i
    refine ⟨?_, code_of_guarded rfl scratch (expandXor_imm_bytes d i), code_of_guarded rfl scratch ?_, ?_⟩
    · rw [code_of_expand rfl]; simp [andInstr]
    · rw [List.flatMap_append, expandXor_imm_bytes]; simp
    · rw [code_of_expand rfl]; simp
  case compare =>
    refine ⟨?_, ?_, ?_, ?_, ?_, ?_⟩ <;> rw [code_of_expand rfl] <;> simp [cmpInstr]
  case unary =>
    refine ⟨?_, ?_, ?_⟩ <;> rw [code_of_expand rfl] <;> simp
  case ret => rw [code_of_expand rfl]; simp
  case nop => rw [code_of_expand rfl]; simp

end Sys2Proof.Machine
end

section
/-! What a step can do (40_cycle.md R110 to R124): a step that executes no instruction leaves registers, SP, memory and the
anomaly record alone, and an execute phase changes each of them by few of the forms of `ExecForm`. -/

namespace Sys2Proof.Machine

/-- What a fetch, an abort of phases 0, 5 and 6 and a step of a faulted core leave alone. -/
structure Quiet (s t : State) : Prop where
  regs : t.regs = s.regs
  sp : t.sp = s.sp
  mem : t.mem = s.mem
  anomalies : t.anomalies = s.anomalies

theorem fetchOpcode_quiet (s : State) : Quiet s (fetchOpcode Config.params s) := by
  cases opcode : decodeOpcode Config.params (memRead s.pc s) with
  | ok o => rw [fetchOpcode_of_ok opcode]; exact ⟨rfl, rfl, rfl, rfl⟩
  | error e => rw [fetchOpcode_of_error opcode]; exact ⟨rfl, rfl, rfl, rfl⟩

/-- A step is quiet or an execute phase. -/
theorem step_quiet_or_executes {s t : State} (h : step s = .next t) : Quiet s t ∨ ∃ i, Executes s i ∧ ExecForm i s t := by
  rcases step_cases h with ⟨-, rfl⟩ | ⟨-, -, rfl⟩ | ⟨-, -, rfl⟩ | ⟨-, -, -, rfl⟩ | ⟨-, -, rfl⟩ | ⟨i, executes, next⟩
  case inr.inl => exact .inl (fetchOpcode_quiet s)
  case inr.inr.inr.inr.inr => exact .inr ⟨i, executes, exec_form_of_next next⟩
  all_goals exact .inl ⟨rfl, rfl, rfl, rfl⟩

/-- A mirror that moves SP is at one of the two mirror addresses. -/
theorem mirrored_moved {a sp : Addr} {v : Byte} (moved : mirrored a v sp ≠ sp) : a = 0xFFFE ∨ a = 0xFFFF := by
  by_contra other
  obtain ⟨notSpl, notSph⟩ := not_or.1 other
  exact moved (mirrored_other notSpl notSph v sp)

/-- Addresses of ROM have no mirror. -/
theorem mirrored_of_rom {a : Addr} (rom : a < 0x8000) (v : Byte) (sp : Addr) : mirrored a v sp = sp :=
  mirrored_other (by rintro rfl; exact absurd rom (by decide)) (by rintro rfl; exact absurd rom (by decide)) v sp

namespace ExecForm

variable {i : Instr} {s t : State}

/-- PC after an execute phase: only a taken JNZ moves it. -/
theorem pc_moved (h : ExecForm i s t) (moved : t.pc ≠ s.pc) :
    t.pc = joinBytes s.regs.h s.regs.l ∧ ((∃ b, i = .jnzSR b ∧ regVal s b ≠ 0) ∨ (∃ b, i = .jnzSI b ∧ b ≠ 0)) := by
  cases h
  case jumped taken _ _ => exact ⟨joinBytes_hi_lo _, taken⟩
  all_goals exact absurd rfl moved

/-- SP after an execute phase: POP, PUSH, and SW at a mirror address move it. -/
theorem sp_moved (h : ExecForm i s t) (moved : t.sp ≠ s.sp) :
    (∃ b, i = .popD b ∧ t.sp = s.sp + 1) ∨
    (∃ o, ((∃ b, i = .pushSR b ∧ o = .reg b) ∨ (∃ b, i = .pushSI b ∧ o = .imm b)) ∧
      t.sp = mirrored (s.sp - 1) (operandVal s o) (s.sp - 1)) ∨
    (∃ r o, ((∃ h l, i = .swMR r h l ∧ o = .regs h l) ∨ (∃ h l, i = .swMI r h l ∧ o = .imm h l)) ∧
      (addrVal s o = 0xFFFE ∧ t.sp = joinBytes s.sph (regVal s r) ∨
        addrVal s o = 0xFFFF ∧ t.sp = joinBytes (regVal s r) s.spl)) := by
  cases h
  case popped d form => exact .inl ⟨d, form, joinBytes_hi_lo _⟩
  case pushed o _ form _ _ _ => exact .inr (.inl ⟨o, form, joinBytes_hi_lo _⟩)
  case pushAborted o _ form _ _ rom =>
    exact .inr (.inl ⟨o, form, (joinBytes_hi_lo _).trans (mirrored_of_rom rom _ _).symm⟩)
  case stored r o n form _ _ _ =>
    have sp : ((((s.addNotes n).setByte (addrVal s o) (regVal s r)).setSp
        (mirrored (addrVal s o) (regVal s r) s.sp)).at .p0).sp = mirrored (addrVal s o) (regVal s r) s.sp :=
      joinBytes_hi_lo _
    rw [sp] at moved ⊢
    refine .inr (.inr ⟨r, o, form, ?_⟩)
    rcases mirrored_moved moved with low | high
    · rw [low, mirrored_spl]
      exact .inl ⟨rfl, congrArg (joinBytes · _) (hiByte_joinBytes ..)⟩
    · rw [high, mirrored_sph]
      exact .inr ⟨rfl, congrArg (joinBytes _) (loByte_joinBytes ..)⟩
  all_goals exact absurd rfl moved

/-- F after an execute phase: it gains bits, in ADD and ADC alone, or it is the destination or CMP's. -/
theorem flags (h : ExecForm i s t) :
    (∃ w, t.regs.f = s.regs.f ||| w ∧ (w = 0 ∨ hasFlagPhase i.opcode.prim = true)) ∨
      i.opcode.prim = .cmp ∨ ∃ c, destCode i = some c ∧ namedReg c = some .F := by
  have same : t.regs.f = s.regs.f → ∃ w, t.regs.f = s.regs.f ||| w ∧ (w = 0 ∨ hasFlagPhase i.opcode.prim = true) :=
    fun e => ⟨0, by simpa using e, .inl rfl⟩
  cases h
  case wrote c v n dest _ _ =>
    by_cases isF : namedReg c = some .F
    · exact .inr (.inr ⟨c, dest, isF⟩)
    · exact .inl (same ((wrote_get s c v n .F).trans (if_neg isF)))
  case popped d form =>
    by_cases isF : namedReg d = some .F
    · exact .inr (.inr ⟨d, form ▸ rfl, isF⟩)
    · exact .inl (same ((wrote_get (s.setSp (s.sp + 1)) d _ [] .F).trans (if_neg isF)))
  case summed c v w n dest flagPhase _ _ =>
    by_cases isF : namedReg c = some .F
    · exact .inr (.inr ⟨c, dest, isF⟩)
    · exact .inl ⟨w, (wrote_orF_f s c v w n).trans (congrArg (· ||| w) (if_neg isF)), .inr flagPhase⟩
  case compared w _ flagPhase _ _ => exact .inl ⟨w, rfl, .inr flagPhase⟩
  case flagged cmp _ _ => exact .inr (.inl cmp)
  all_goals exact .inl (same rfl)

/-- A register other than F after an execute phase: it is the destination, or H or L of LDA. -/
theorem reg_changed (h : ExecForm i s t) {r : Reg} (notF : r ≠ .F) (changed : t.regs.get r ≠ s.regs.get r) :
    (∃ c, destCode i = some c ∧ namedReg c = some r) ∨ i.opcode.prim = .lda ∧ (r = .H ∨ r = .L) := by
  cases h
  case wrote c v n dest _ _ =>
    by_contra other
    exact changed ((wrote_get s c v n r).trans (if_neg fun named => other (.inl ⟨c, dest, named⟩)))
  case popped d form =>
    by_contra other
    exact changed ((wrote_get (s.setSp (s.sp + 1)) d _ [] r).trans
      (if_neg fun named => other (.inl ⟨d, form ▸ rfl, named⟩)))
  case summed c v w n dest _ _ _ =>
    by_contra other
    exact changed (((orF_get _ w r).trans (if_neg notF)).trans
      ((wrote_get s c v n r).trans (if_neg fun named => other (.inl ⟨c, dest, named⟩))))
  case compared w n _ _ _ => exact absurd ((orF_get (s.addNotes n) w r).trans (if_neg notF)) changed
  case flagged w n _ _ _ => exact absurd ((RegFile.get_set s.regs .F r w).trans (if_neg notF)) changed
  case pointed hi lo form =>
    refine .inr ⟨form ▸ rfl, ?_⟩
    by_contra other
    obtain ⟨notH, notL⟩ := not_or.1 other
    exact changed (((RegFile.get_set _ .L r lo).trans (if_neg notL)).trans ((RegFile.get_set _ .H r hi).trans (if_neg notH)))
  all_goals exact absurd rfl changed

/-- Memory after an execute phase: SW and PUSH change the byte they store to, and never one of ROM. -/
theorem byte_changed (h : ExecForm i s t) {a : Addr} (changed : memRead a t ≠ memRead a s) :
    ¬ a < 0x8000 ∧
      ((∃ r o, ((∃ h l, i = .swMR r h l ∧ o = .regs h l) ∨ (∃ h l, i = .swMI r h l ∧ o = .imm h l)) ∧ a = addrVal s o) ∨
        ((∃ b, i = .pushSR b) ∨ (∃ b, i = .pushSI b)) ∧ a = s.sp - 1) := by
  cases h
  case stored r o n form _ _ ram =>
    obtain rfl : a = addrVal s o := by
      by_contra ne
      exact changed (memRead_setByte_ne ne (regVal s r) s)
    exact ⟨ram, .inl ⟨r, o, form, rfl⟩⟩
  case pushed o n form _ _ ram =>
    obtain rfl : a = s.sp - 1 := by
      by_contra ne
      exact changed (memRead_setByte_ne ne (operandVal s o) s)
    refine ⟨ram, .inr ⟨?_, rfl⟩⟩
    rcases form with ⟨b, push, -⟩ | ⟨b, push, -⟩
    · exact .inl ⟨b, push⟩
    · exact .inr ⟨b, push⟩
  all_goals exact absurd rfl changed

/-- The anomaly record after an execute phase: at most three anomalies more. -/
theorem notes (h : ExecForm i s t) :
    ∃ new, t.anomalies = s.anomalies ++ new ∧ new.length ≤ 3 ∧ NotesOf s new := by
  cases h
  case wrote c v n _ notes short | summed c v w n _ _ notes short =>
    obtain ⟨written, one⟩ := writeNote_notes s c
    exact ⟨n ++ writeNote s c, rfl, by rw [List.length_append]; omega, notes.append written⟩
  case popped d _ =>
    obtain ⟨written, one⟩ := writeNote_notes s d
    exact ⟨writeNote s d, rfl, by omega, written⟩
  case pointed => exact ⟨[], (List.append_nil _).symm, by decide, nofun⟩
  case compared n _ notes short | flagged n _ notes short | fellThrough n _ notes short | jumped n _ notes short |
      pushed n _ notes short _ | pushAborted n _ notes short _ => exact ⟨n, rfl, by omega, notes⟩
  case stored n _ notes short _ | storeAborted n notes short _ _ => exact ⟨n, rfl, short, notes⟩

/-- Memory stays canonical. -/
theorem mem_wf (h : ExecForm i s t) (wf : s.mem.wf = true) : t.mem.wf = true := by
  cases h
  case stored | pushed => exact setByte_wf (s := s) wf _ _
  all_goals exact wf

/-- An execute phase ends with the next phase and no abort, or it aborts in its phase on a write to ROM. -/
theorem ends (h : ExecForm i s t) :
    (SameStop s t ∧ (t.phase = .p0 ∨ t.phase = .p4 ∧ hasFlagPhase i.opcode.prim = true)) ∨
      (t.phase = s.phase ∧ t.faulted = true ∧ ∃ a, t.fault = some (.romWrite a)) := by
  cases h
  case summed flagPhase _ _ => exact .inl ⟨⟨rfl, rfl⟩, .inr ⟨rfl, flagPhase⟩⟩
  case storeAborted | pushAborted => exact .inr ⟨rfl, rfl, _, rfl⟩
  all_goals exact .inl ⟨⟨rfl, rfl⟩, .inl rfl⟩

end ExecForm

/-- Settles O20: of the steps that are no execute phase each fetch moves PC by one and the others leave it. -/
theorem onlyFetchAndTakenJnzMovePc : Obligations.OnlyFetchAndTakenJnzMovePc := by
  intro s t h moved
  rcases step_cases h with ⟨-, rfl⟩ | ⟨-, phase, rfl⟩ | ⟨-, phase, rfl⟩ | ⟨-, phase, three, rfl⟩ | ⟨-, -, rfl⟩ |
    ⟨i, executes, next⟩
  case inl => exact absurd rfl moved
  case inr.inl =>
    refine .inl ⟨?_, .inl phase⟩
    cases opcode : decodeOpcode Config.params (memRead s.pc s) with
    | ok o => rw [fetchOpcode_of_ok opcode]; exact opcodeFetched_pc s
    | error e => rw [fetchOpcode_of_error opcode]; exact opcodeFetched_pc s
  case inr.inr.inl => exact .inl ⟨fetchArg1_pc s, .inr (.inl phase)⟩
  case inr.inr.inr.inl => exact .inl ⟨fetchArg2_pc s, .inr (.inr ⟨phase, three⟩)⟩
  case inr.inr.inr.inr.inl => exact absurd rfl moved
  case inr.inr.inr.inr.inr =>
    obtain ⟨target, ⟨b, rfl, taken⟩ | ⟨b, rfl, taken⟩⟩ := (exec_form_of_next next).pc_moved moved
    · exact .inr ⟨target, b, .inl ⟨executes, taken⟩⟩
    · exact .inr ⟨target, b, .inr ⟨executes, taken⟩⟩

/-- Settles O21, by `ExecForm.sp_moved`. -/
theorem onlyStackAndMirrorMoveSp : Obligations.OnlyStackAndMirrorMoveSp := by
  intro s t h moved
  rcases step_quiet_or_executes h with quiet | ⟨i, executes, form⟩
  case inl => exact absurd quiet.sp moved
  case inr =>
    rcases form.sp_moved moved with ⟨b, rfl, sp⟩ | ⟨o, ⟨b, rfl, rfl⟩ | ⟨b, rfl, rfl⟩, sp⟩ |
      ⟨r, o, ⟨h, l, rfl, rfl⟩ | ⟨h, l, rfl, rfl⟩, sp⟩
    · exact .inl ⟨b, executes, sp⟩
    · exact .inr (.inl ⟨b, executes, sp⟩)
    · exact .inr (.inr (.inl ⟨b, executes, sp⟩))
    · rw [← readAddr_params_fst] at sp
      exact .inr (.inr (.inr (.inl ⟨r, h, l, executes, sp⟩)))
    · exact .inr (.inr (.inr (.inr ⟨r, h, l, executes, sp⟩)))

theorem hasFlagPhase_iff (k : Primitive) : hasFlagPhase k = true ↔ k = .add ∨ k = .adc := by
  cases k <;> decide

/-- Settles O22, by `ExecForm.flags`: ORing bits into F loses none, and ORing none changes nothing. -/
theorem flagsAreLostOnlyByCmpOrADestinationF : Obligations.FlagsAreLostOnlyByCmpOrADestinationF := by
  intro s t h
  rcases step_quiet_or_executes h with quiet | ⟨i, executes, form⟩
  case inl =>
    rw [quiet.regs]
    exact ⟨fun k set cleared => by simp [set] at cleared, fun changed => absurd rfl changed⟩
  case inr =>
    rcases form.flags with ⟨w, ored, gain⟩ | lost
    case inl =>
      rw [ored]
      refine ⟨fun k set cleared => ?_, fun changed => ⟨i, executes, ?_⟩⟩
      · simp [set] at cleared
      · rcases gain with rfl | flagPhase
        · exact absurd (BitVec.or_zero ..) changed
        · rcases (hasFlagPhase_iff _).1 flagPhase with add | adc
          · exact .inr (.inl add)
          · exact .inr (.inr (.inl adc))
    case inr =>
      refine ⟨fun _ _ _ => ⟨i, executes, lost⟩, fun _ => ⟨i, executes, ?_⟩⟩
      rcases lost with cmp | dest
      · exact .inl cmp
      · exact .inr (.inr (.inr dest))

/-- Settles O23, by `ExecForm.reg_changed`. -/
theorem registersChangeOnlyAsDestinations : Obligations.RegistersChangeOnlyAsDestinations := by
  intro s t r h notF changed
  rcases step_quiet_or_executes h with quiet | ⟨i, executes, form⟩
  case inl => exact absurd (congrArg (RegFile.get · r) quiet.regs) changed
  case inr => exact ⟨i, executes, form.reg_changed notF changed⟩

/-- Settles O24, by `ExecForm.byte_changed`. -/
theorem onlySwAndPushWriteMemory : Obligations.OnlySwAndPushWriteMemory := by
  intro s t a h changed
  rcases step_quiet_or_executes h with quiet | ⟨i, executes, form⟩
  case inl => exact absurd (memRead_congr quiet.mem a) changed
  case inr =>
    obtain ⟨-, ⟨r, o, ⟨h, l, rfl, rfl⟩ | ⟨h, l, rfl, rfl⟩, addr⟩ | ⟨⟨b, rfl⟩ | ⟨b, rfl⟩, addr⟩⟩ := form.byte_changed changed
    · exact .inl ⟨r, h, l, executes, addr.trans (readAddr_params_fst _ s).symm⟩
    · exact .inr (.inl ⟨r, h, l, executes, addr⟩)
    · exact .inr (.inr ⟨b, .inl executes, addr⟩)
    · exact .inr (.inr ⟨b, .inr executes, addr⟩)

/-- Settles O25: a byte that an execute phase changes is not in ROM. -/
theorem coreNeverChangesRom : Obligations.CoreNeverChangesRom := by
  intro s t a h rom
  rcases step_quiet_or_executes h with quiet | ⟨i, -, form⟩
  case inl => exact memRead_congr quiet.mem a
  case inr =>
    by_contra changed
    obtain ⟨ram, -⟩ := form.byte_changed changed
    exact ram ((lt_ramBase_iff a).2 rom)

/-- Settles O26, by `ExecForm.notes`. -/
theorem anomalyRecordOnlyGrows : Obligations.AnomalyRecordOnlyGrows := by
  intro s t h
  rcases step_quiet_or_executes h with quiet | ⟨i, -, form⟩
  case inl => exact ⟨[], by simp [quiet.anomalies], by decide, nofun⟩
  case inr => exact form.notes

end Sys2Proof.Machine
end

section
/-! Which step the state calls for (40_cycle.md R112 to R119): the instruction that IR and the operand registers hold, and
when it executes. -/

namespace Sys2Proof.Machine

/-- The instruction in IR, ARG1 and ARG2, where IR is a defined opcode. -/
theorem fetchedInstr_of_ok {s : State} {o : Opcode} (opcode : decodeOpcode Config.params s.ir = .ok o) :
    fetchedInstr Config.params s = some (o.instr s.arg1 (if o.prim.length = 3 then s.arg2 else 0)) := by
  rw [fetchedInstr, decode_cons, opcode]
  rcases o.prim.length_eq with two | three
  · simp only [two]; rfl
  · simp only [three]; rfl

/-- Whether an opcode executes in a phase, from what `phaseFits` demands of IR there (40_cycle.md R116 to R119). -/
theorem executesIn_instr {o : Opcode} {ph : Phase} (arg1 arg2 : Byte) (late : ph ≠ .p0 ∧ ph ≠ .p1)
    (fits : phaseFits ph (.ok o) = true) (two : ph = .p2 → o.prim.length = 2) :
    executesIn (o.instr arg1 arg2) ph = true := by
  cases ph with
  | p0 => exact absurd rfl late.1
  | p1 => exact absurd rfl late.2
  | p2 => exact beq_iff_eq.2 ((o.instr_length arg1 arg2).trans (two rfl))
  | p3 => exact beq_iff_eq.2 ((o.instr_length arg1 arg2).trans (beq_iff_eq.1 fits))
  | p4 => exact (congrArg hasFlagPhase (o.instr_prim arg1 arg2)).trans fits
  | p5 | p6 => cases fits

theorem hasFlagPhase_length {k : Primitive} (h : hasFlagPhase k = true) : k.length = 3 := by
  rcases (hasFlagPhase_iff k).1 h with rfl | rfl <;> rfl

/-- A state that executes in phase 2 holds a 2-byte instruction. -/
theorem Executes.needs2_eq_false {s : State} {i : Instr} (h : Executes s i) (phase : s.phase = .p2) :
    needs2 Config.params s.ir = false := by
  obtain ⟨-, held, executes⟩ := h
  obtain ⟨o, opcode, prim⟩ := fetchedInstr_prim held
  rw [phase] at executes
  have two : o.prim.length = 2 := by rw [← prim]; exact beq_iff_eq.1 executes
  rw [needs2_of_ok opcode, two]
  rfl

/-- In an execute phase the step is the meaning of the instruction held. -/
theorem step_of_executes {s : State} {i : Instr} (h : Executes s i) : step s = exec i s := by
  have short := h.needs2_eq_false
  obtain ⟨running, held, executes⟩ := h
  have phase : executePhase Config.params exec s = exec i s := by simp [executePhase, held, executes]
  rw [step, runPhase, running]
  cases ph : s.phase with
  | p2 => simpa [short ph] using phase
  | p3 | p4 => simpa using phase
  | p0 | p1 | p5 | p6 => rw [ph] at executes; cases executes

theorem step_of_faulted {s : State} (h : s.faulted = true) : step s = .next s := by
  simp [step, runPhase, h]

/-- Settles O12, by induction on the steps. -/
theorem faultedCoreDoesNothing : Obligations.FaultedCoreDoesNothing := by
  intro s k faulted
  induction k with
  | zero => rfl
  | succ k ih => exact (runFor_succ_of_next (step_of_faulted faulted) k).trans ih

/-- Settles O13: `runPhase` aborts in both phases. -/
theorem phasesFiveAndSixAbort : Obligations.PhasesFiveAndSixAbort := by
  intro s running phase
  rcases phase with phase | phase <;> simp [step, runPhase, running, phase, State.abort]

/-- Settles O11: the step is the fetch of an undefined opcode, `fetchOpcode_of_error`. -/
theorem undefinedOpcodeAbortsInPhaseZero : Obligations.UndefinedOpcodeAbortsInPhaseZero := by
  intro s running phase opcode
  refine ⟨_, step_of_phase_zero running phase, ?_⟩
  rw [fetchOpcode_of_error opcode]
  exact ⟨rfl, rfl, rfl, opcodeFetched_pc s, phase, rfl, rfl, fun _ => rfl, fun _ => rfl, rfl, rfl, rfl, rfl, rfl, rfl⟩

/-- What phase 0 loads, whether the opcode is defined or not. -/
theorem fetchOpcode_loads (s : State) :
    (fetchOpcode Config.params s).ir = memRead s.pc s ∧ (fetchOpcode Config.params s).ioPrev = memRead 0xFF00 s ∧
      (fetchOpcode Config.params s).ioEvents = s.ioEvents ++ eventsAt s := by
  cases opcode : decodeOpcode Config.params (memRead s.pc s) with
  | ok o => rw [fetchOpcode_of_ok opcode]; exact ⟨rfl, rfl, rfl⟩
  | error e => rw [fetchOpcode_of_error opcode]; exact ⟨rfl, rfl, rfl⟩

/-- A step outside phase 0 changes none of IR, the latch and the event record. -/
theorem step_keeps_latches {s t : State} (h : step s = .next t) (other : s.faulted = true ∨ s.phase ≠ .p0) :
    t.ir = s.ir ∧ t.ioPrev = s.ioPrev ∧ t.ioEvents = s.ioEvents := by
  rcases step_cases h with ⟨-, rfl⟩ | ⟨running, phase, rfl⟩ | ⟨-, -, rfl⟩ | ⟨-, -, -, rfl⟩ | ⟨-, -, rfl⟩ |
    ⟨i, -, next⟩
  case inr.inl => simp [running, phase] at other
  case inr.inr.inr.inr.inr =>
    obtain ⟨ir, -, -, latch, events, -⟩ := (exec_form_of_next next).hidden
    exact ⟨ir, latch, events⟩
  all_goals exact ⟨rfl, rfl, rfl⟩

theorem eq_fetchOpcode_of_step {s t : State} (h : step s = .next t) (running : s.faulted = false) (phase : s.phase = .p0) :
    t = fetchOpcode Config.params s := by
  rw [step_of_phase_zero running phase] at h
  cases h
  rfl

/-- Settles O14: phase 0 by `fetchOpcode_loads`, every other step by `step_keeps_latches`. -/
theorem instructionRegisterChangesOnlyInPhaseZero : Obligations.InstructionRegisterChangesOnlyInPhaseZero := by
  intro s t h
  refine ⟨fun running phase => ?_, fun other => (step_keeps_latches h other).1⟩
  obtain rfl := eq_fetchOpcode_of_step h running phase
  exact (fetchOpcode_loads s).1

/-- Settles O15: phase 0 by `fetchOpcode_loads`, every other step by `step_keeps_latches`. -/
theorem ioEventExactlyOnChangeInPhaseZero : Obligations.IoEventExactlyOnChangeInPhaseZero := by
  intro s t h
  refine ⟨fun running phase => ?_, fun other => (step_keeps_latches h other).2⟩
  obtain rfl := eq_fetchOpcode_of_step h running phase
  exact (fetchOpcode_loads s).2

/-- An undefined opcode in IR fits no phase but phase 0. -/
theorem phaseFits_error (ph : Phase) (e : DecodeError) (late : ph ≠ .p0) : phaseFits ph (.error e) = false := by
  cases ph
  case p0 => exact absurd rfl late
  all_goals rfl

/-- Phase 0 keeps the invariant: a defined opcode fits phase 1, and an abort is recorded. -/
theorem fetchOpcode_inv {s : State} (h : s.Inv) (phase : s.phase = .p0) :
    (fetchOpcode Config.params s).Inv := by
  obtain ⟨wf, stop, -⟩ := h
  cases opcode : decodeOpcode Config.params (memRead s.pc s) with
  | ok o =>
    rw [fetchOpcode_of_ok opcode]
    refine ⟨wf, stop, ?_⟩
    change phaseFits .p1 (decodeOpcode Config.params (memRead s.pc s)) = true
    rw [opcode]
    rfl
  | error e =>
    rw [fetchOpcode_of_error opcode]
    refine ⟨wf, rfl, ?_⟩
    change phaseFits s.phase _ = true
    rw [phase]
    rfl

/-- An execute phase keeps the invariant: it ends in phase 0, in phase 4 of ADD and ADC, or where it was. -/
theorem ExecForm.inv {i : Instr} {s t : State} (form : ExecForm i s t) (executes : Executes s i) (h : s.Inv) :
    t.Inv := by
  obtain ⟨wf, stop, fits⟩ := h
  obtain ⟨running, held, -⟩ := executes
  obtain ⟨ir, -⟩ := form.hidden
  refine ⟨form.mem_wf wf, ?_⟩
  rw [ir]
  rcases form.ends with ⟨⟨faulted, fault⟩, phase⟩ | ⟨phase, faulted, a, fault⟩
  case inl =>
    refine ⟨by rw [faulted, fault, stop], ?_⟩
    rcases phase with phase | ⟨phase, flagPhase⟩
    · rw [phase]
      rfl
    · obtain ⟨o, opcode, prim⟩ := fetchedInstr_prim held
      rw [phase, opcode]
      exact (congrArg hasFlagPhase prim).symm.trans flagPhase
  case inr => exact ⟨by rw [faulted, fault]; rfl, by rw [phase]; exact fits⟩

/-- Settles O18, by the cases of a step: a fetch reaches a phase that IR fits, phases 5 and 6 do not meet the invariant, and
an execute phase is `ExecForm.inv`. -/
theorem stepKeepsTheInvariant : Obligations.StepKeepsTheInvariant := by
  intro s t h next
  have ⟨wf, stop, fits⟩ := h
  rcases step_cases next with ⟨-, rfl⟩ | ⟨-, phase, rfl⟩ | ⟨-, phase, rfl⟩ | ⟨-, phase, three, rfl⟩ |
    ⟨-, phase, rfl⟩ | ⟨i, executes, run⟩
  case inl => exact h
  case inr.inl => exact fetchOpcode_inv h phase
  case inr.inr.inl =>
    refine ⟨wf, stop, ?_⟩
    rw [phase] at fits
    change phaseFits .p2 (decodeOpcode Config.params s.ir) = true
    cases opcode : decodeOpcode Config.params s.ir with
    | ok o => rfl
    | error e => rw [opcode] at fits; cases fits
  case inr.inr.inr.inl =>
    refine ⟨wf, stop, ?_⟩
    obtain ⟨o, opcode, length⟩ := (needs2_eq_true_iff _ _).1 three
    change phaseFits .p3 (decodeOpcode Config.params s.ir) = true
    rw [opcode]
    exact beq_iff_eq.2 length
  case inr.inr.inr.inr.inl => rcases phase with phase | phase <;> rw [phase] at fits <;> cases fits
  case inr.inr.inr.inr.inr => exact (exec_form_of_next run).inv executes h

/-- In phases 2, 3 and 4, past the fetch of a second operand byte, a state whose phase fits IR executes an instruction. -/
theorem exists_executes {s : State} (running : s.faulted = false) (late : s.phase ≠ .p0 ∧ s.phase ≠ .p1)
    (fits : phaseFits s.phase (decodeOpcode Config.params s.ir) = true)
    (fetched : s.phase = .p2 → needs2 Config.params s.ir = false) : ∃ i, Executes s i := by
  cases opcode : decodeOpcode Config.params s.ir with
  | error e => rw [opcode, phaseFits_error s.phase e late.1] at fits; cases fits
  | ok o =>
    rw [opcode] at fits
    refine ⟨_, running, fetchedInstr_of_ok opcode, executesIn_instr _ _ late fits fun phase => ?_⟩
    have short := fetched phase
    rw [needs2_of_ok opcode, beq_eq_false_iff_ne] at short
    exact o.prim.length_eq.resolve_right short

/-- Settles O19, by the phase: a fetch always answers, and an execute phase holds an instruction, whose meaning does. -/
theorem invariantStatesAlwaysStep : Obligations.InvariantStatesAlwaysStep := by
  rintro s ⟨-, -, fits⟩
  cases running : s.faulted with
  | true => exact ⟨s, step_of_faulted running⟩
  | false =>
    by_cases zero : s.phase = .p0
    case pos => exact ⟨_, step_of_phase_zero running zero⟩
    by_cases one : s.phase = .p1
    case pos => exact ⟨_, step_of_phase_one running one⟩
    by_cases fetch : s.phase = .p2 ∧ needs2 Config.params s.ir = true
    case pos => exact ⟨_, step_of_phase_two running fetch.1 fetch.2⟩
    case neg =>
      have fetched : s.phase = .p2 → needs2 Config.params s.ir = false := fun two => by
        simpa using fun three => fetch ⟨two, three⟩
      obtain ⟨i, executes⟩ := exists_executes running ⟨zero, one⟩ fits fetched
      obtain ⟨t, next, -⟩ := exec_form i s
      exact ⟨t, (step_of_executes executes).trans next⟩

end Sys2Proof.Machine
end

section
/-! What the execute phases do not read (10_state.md R32, R40): ARG2 once the instruction is decoded, the I/O latch and the
two records. -/

namespace Sys2Proof.Machine

/-- The state with other values in ARG2, the I/O latch, the event record and the anomaly record. -/
def State.withUnread (s : State) (arg2 latch : Byte) (events : List Byte) (record : List Anomaly) : State :=
  { s with arg2 := arg2, ioPrev := latch, ioEvents := events, anomalies := record }

/-- A meaning that answers at `s` and reads none of the four fields: other values there stay, but for the anomalies `new`
that it records. -/
def Unreading (ex : State → Host.Outcome State Fault Refusal) (s : State) : Prop :=
  ∃ t new, ex s = .next t ∧ t.anomalies = s.anomalies ++ new ∧
    ∀ arg2 latch events record,
      ex (s.withUnread arg2 latch events record) = .next (t.withUnread arg2 latch events (record ++ new))

section

variable (s : State) (arg2 latch : Byte) (events : List Byte) (record : List Anomaly)

theorem operandVal_withUnread (o : Operand) :
    operandVal (s.withUnread arg2 latch events record) o = operandVal s o := by cases o <;> rfl

theorem operandNote_withUnread (o : Operand) :
    operandNote (s.withUnread arg2 latch events record) o = operandNote s o := by cases o <;> rfl

theorem addrVal_withUnread (o : AddrOperand) :
    addrVal (s.withUnread arg2 latch events record) o = addrVal s o := by cases o <;> rfl

theorem addrNote_withUnread (o : AddrOperand) :
    addrNote (s.withUnread arg2 latch events record) o = addrNote s o := by cases o <;> rfl

/-- A register write and the end of its phase, from a state with other values. -/
theorem wrote_at_withUnread (d v : Byte) (notes : List Anomaly) (ph : Phase) :
    ((s.withUnread arg2 latch events record).wrote d v notes).at ph =
      ((s.wrote d v notes).at ph).withUnread arg2 latch events (record ++ (notes ++ writeNote s d)) := rfl

end

theorem movOp_unreading (d : Byte) (o : Operand) (s : State) : Unreading (movOp Config.params d o) s := by
  refine ⟨_, operandNote s o ++ writeNote s d, movOp_params d o s, rfl, fun arg2 latch events record => ?_⟩
  rw [movOp_params, operandVal_withUnread, operandNote_withUnread, wrote_at_withUnread]

theorem lwOp_unreading (r : Byte) (o : AddrOperand) (s : State) : Unreading (lwOp Config.params r o) s := by
  refine ⟨_, addrNote s o ++ writeNote s r, lwOp_params r o s, rfl, fun arg2 latch events record => ?_⟩
  rw [lwOp_params, addrVal_withUnread, addrNote_withUnread, wrote_at_withUnread]
  rfl

theorem popOp_unreading (d : Byte) (s : State) : Unreading (popOp Config.params d) s :=
  ⟨_, writeNote s d, popOp_params d s, rfl, fun _ _ _ _ => popOp_params d _⟩

theorem logicOp_unreading (g : Byte → Byte → Byte) (d : Byte) (o : Operand) (s : State) :
    Unreading (logicOp Config.params g d o) s := by
  refine ⟨_, readNote s d ++ operandNote s o ++ writeNote s d, logicOp_params g d o s, rfl,
    fun arg2 latch events record => ?_⟩
  rw [logicOp_params, operandVal_withUnread, operandNote_withUnread, wrote_at_withUnread]
  rfl

theorem cmpOp_unreading (a : Byte) (o : Operand) (s : State) : Unreading (cmpOp Config.params a o) s := by
  refine ⟨_, readNote s a ++ operandNote s o, cmpOp_params a o s, rfl, fun arg2 latch events record => ?_⟩
  rw [cmpOp_params, operandVal_withUnread, operandNote_withUnread]
  rfl

theorem ldaOp_unreading (hi lo : Byte) (s : State) : Unreading (ldaOp hi lo) s :=
  ⟨_, [], rfl, (List.append_nil _).symm, fun arg2 latch events record => by rw [List.append_nil]; rfl⟩

theorem swOp_unreading (r : Byte) (o : AddrOperand) (s : State) : Unreading (swOp Config.params r o) s := by
  by_cases rom : (addrVal s o).toNat < 0x8000
  case pos =>
    refine ⟨_, addrNote s o ++ readNote s r, by rw [swOp_params, memWrite_params_of_rom rom, endPhase_error], rfl,
      fun arg2 latch events record => ?_⟩
    rw [swOp_params, addrVal_withUnread, addrNote_withUnread, memWrite_params_of_rom rom]
    rfl
  case neg =>
    have ram := Nat.not_lt.1 rom
    refine ⟨_, addrNote s o ++ readNote s r, by rw [swOp_params, memWrite_params_of_not_rom ram, endPhase_ok], rfl,
      fun arg2 latch events record => ?_⟩
    rw [swOp_params, addrVal_withUnread, addrNote_withUnread, memWrite_params_of_not_rom ram]
    rfl

theorem pushOp_unreading (o : Operand) (s : State) : Unreading (pushOp Config.params o) s := by
  by_cases rom : s.sp - 1 < 0x8000
  case pos =>
    refine ⟨_, operandNote s o, by rw [pushOp_params, pushByte_params, addNotes_sp, if_pos rom, endPhase_error], rfl,
      fun arg2 latch events record => ?_⟩
    have rom' : (s.withUnread arg2 latch events record).sp - 1 < 0x8000 := rom
    rw [pushOp_params, pushByte_params, operandVal_withUnread, operandNote_withUnread, addNotes_sp, if_pos rom']
    rfl
  case neg =>
    refine ⟨_, operandNote s o, by rw [pushOp_params, pushByte_params, addNotes_sp, if_neg rom, endPhase_ok], rfl,
      fun arg2 latch events record => ?_⟩
    have ram' : ¬ (s.withUnread arg2 latch events record).sp - 1 < 0x8000 := rom
    rw [pushOp_params, pushByte_params, operandVal_withUnread, operandNote_withUnread, addNotes_sp, if_neg ram']
    rfl

theorem jnzOp_unreading (o : Operand) (s : State) : Unreading (jnzOp Config.params o) s := by
  by_cases zero : operandVal s o = 0
  case pos =>
    refine ⟨_, operandNote s o, by rw [jnzOp_params, if_pos zero], rfl, fun arg2 latch events record => ?_⟩
    rw [jnzOp_params, operandVal_withUnread, operandNote_withUnread, if_pos zero]
    rfl
  case neg =>
    refine ⟨_, operandNote s o, by rw [jnzOp_params, if_neg zero], rfl, fun arg2 latch events record => ?_⟩
    rw [jnzOp_params, operandVal_withUnread, operandNote_withUnread, if_neg zero]
    rfl

theorem addArith_unreading (c : Nat) (d : Byte) (o : Operand) (s : State) :
    ∃ new, (addArith Config.params c d o s).anomalies = s.anomalies ++ new ∧ ∀ arg2 latch events record,
      addArith Config.params c d o (s.withUnread arg2 latch events record) =
        (addArith Config.params c d o s).withUnread arg2 latch events (record ++ new) := by
  refine ⟨readNote s d ++ operandNote s o ++ writeNote s d, by rw [addArith_params]; rfl,
    fun arg2 latch events record => ?_⟩
  rw [addArith_params, addArith_params, operandVal_withUnread, operandNote_withUnread]
  rfl

theorem addFlags_unreading (d : Byte) (o : Operand) (s : State) :
    ∃ new, (addFlags Config.params d o s).anomalies = s.anomalies ++ new ∧ ∀ arg2 latch events record,
      addFlags Config.params d o (s.withUnread arg2 latch events record) =
        (addFlags Config.params d o s).withUnread arg2 latch events (record ++ new) := by
  refine ⟨readNote s d ++ operandNote s o, by rw [addFlags_params]; rfl, fun arg2 latch events record => ?_⟩
  rw [addFlags_params, addFlags_params, operandVal_withUnread, operandNote_withUnread]
  rfl

/-- ADD and ADC: both phases, for a carry-in that does not depend on the four fields. -/
theorem unreading_of_phases {ex : State → Host.Outcome State Fault Refusal} {d : Byte} {o : Operand} {c : Nat} {s : State}
    (four : ∀ t : State, t.phase = .p4 → ex t = .next ((addFlags Config.params d o t).at .p0))
    (three : ∀ t : State, t.regs = s.regs → t.phase ≠ .p4 → ex t = .next ((addArith Config.params c d o t).at .p4)) :
    Unreading ex s := by
  by_cases phase : s.phase = .p4
  case pos =>
    obtain ⟨new, notes, same⟩ := addFlags_unreading d o s
    refine ⟨_, new, four s phase, notes, fun arg2 latch events record => ?_⟩
    rw [four (s.withUnread arg2 latch events record) phase, same]
    rfl
  case neg =>
    obtain ⟨new, notes, same⟩ := addArith_unreading c d o s
    refine ⟨_, new, three s rfl phase, notes, fun arg2 latch events record => ?_⟩
    rw [three (s.withUnread arg2 latch events record) rfl phase, same]
    rfl

theorem addOp_unreading (d : Byte) (o : Operand) (s : State) : Unreading (addOp Config.params d o) s :=
  unreading_of_phases (fun _ => addOp_of_phase_four d o) (fun _ _ => addOp_of_phase_ne_four d o)

theorem adcOp_unreading (d : Byte) (o : Operand) (s : State) : Unreading (adcOp Config.params d o) s := by
  refine unreading_of_phases (c := carryBit s) (fun _ => adcOp_of_phase_four d o) fun t regs phase => ?_
  rw [adcOp_of_phase_ne_four d o phase, carryIn_params, carryBit, regs]
  rfl

theorem exec_unreading (i : Instr) (s : State) : Unreading (exec i) s := by
  cases i with
  | movRR d r => exact movOp_unreading d (.reg r) s
  | movRI d b => exact movOp_unreading d (.imm b) s
  | addRR d r => exact addOp_unreading d (.reg r) s
  | addRI d b => exact addOp_unreading d (.imm b) s
  | adcRR d r => exact adcOp_unreading d (.reg r) s
  | adcRI d b => exact adcOp_unreading d (.imm b) s
  | andRR d r => exact logicOp_unreading _ d (.reg r) s
  | andRI d b => exact logicOp_unreading _ d (.imm b) s
  | norRR d r => exact logicOp_unreading (fun x y => ~~~(x ||| y)) d (.reg r) s
  | norRI d b => exact logicOp_unreading (fun x y => ~~~(x ||| y)) d (.imm b) s
  | cmpRR a r => exact cmpOp_unreading a (.reg r) s
  | cmpRI a b => exact cmpOp_unreading a (.imm b) s
  | lwMR r h l => exact lwOp_unreading r (.regs h l) s
  | lwMI r h l => exact lwOp_unreading r (.imm h l) s
  | swMR r h l => exact swOp_unreading r (.regs h l) s
  | swMI r h l => exact swOp_unreading r (.imm h l) s
  | lda hi lo => exact ldaOp_unreading hi lo s
  | pushSR r => exact pushOp_unreading (.reg r) s
  | pushSI b => exact pushOp_unreading (.imm b) s
  | popD d => exact popOp_unreading d s
  | jnzSR r => exact jnzOp_unreading (.reg r) s
  | jnzSI b => exact jnzOp_unreading (.imm b) s

/-- The step of an execute phase from a state with other values in the four fields, where they hold the same instruction. -/
theorem step_withUnread {i : Instr} {s t : State} (next : exec i s = .next t) {arg2 latch : Byte} {events : List Byte}
    {record : List Anomaly} (executes : Executes (s.withUnread arg2 latch events record) i) :
    ∃ new, t.anomalies = s.anomalies ++ new ∧
      step (s.withUnread arg2 latch events record) = .next (t.withUnread arg2 latch events (record ++ new)) := by
  obtain ⟨u, new, next', notes, same⟩ := exec_unreading i s
  rw [next] at next'
  cases next'
  exact ⟨new, notes, (step_of_executes executes).trans (same ..)⟩

/-- Phase 0 compares the latch for the event record, and reads no record. -/
theorem fetchOpcode_withRecords (s : State) (v : Byte) (events : List Byte) (record : List Anomaly) :
    fetchOpcode Config.params { s with ioPrev := v, ioEvents := events, anomalies := record } =
      { fetchOpcode Config.params s with
        ioPrev := memRead 0xFF00 s
        ioEvents := events ++ if memRead 0xFF00 s = v then [] else [memRead 0xFF00 s]
        anomalies := record } := by
  have sameByte : memRead s.pc s = memRead s.pc { s with ioPrev := v, ioEvents := events, anomalies := record } := rfl
  cases opcode : decodeOpcode Config.params (memRead s.pc s) with
  | ok o =>
    rw [fetchOpcode_of_ok opcode]
    exact fetchOpcode_of_ok (sameByte ▸ opcode)
  | error e =>
    rw [fetchOpcode_of_error opcode]
    exact fetchOpcode_of_error (sameByte ▸ opcode)

/-- Settles O27, by the cases of a step: phase 0 reads the latch for the event record alone, the other phases by
`step_withUnread` or without reading a record. -/
theorem latchAndRecordsNeverReachTheProgram : Obligations.LatchAndRecordsNeverReachTheProgram := by
  intro s t v events record h
  rcases step_cases h with ⟨faulted, rfl⟩ | ⟨running, phase, rfl⟩ | ⟨running, phase, rfl⟩ | ⟨running, phase, three, rfl⟩ |
    ⟨running, phase, rfl⟩ | ⟨i, executes, next⟩
  case inl => exact ⟨v, events, record, step_of_faulted faulted⟩
  case inr.inl =>
    refine ⟨_, _, _, (step_of_phase_zero ?_ ?_).trans (congrArg _ (fetchOpcode_withRecords s v events record))⟩
    · exact running
    · exact phase
  case inr.inr.inl => exact ⟨v, events, record, step_of_phase_one running phase⟩
  case inr.inr.inr.inl => exact ⟨v, events, record, step_of_phase_two running phase three⟩
  case inr.inr.inr.inr.inl => exact ⟨v, events, record, phasesFiveAndSixAbort _ running phase⟩
  case inr.inr.inr.inr.inr =>
    obtain ⟨-, -, arg2, -⟩ := (exec_form_of_next next).hidden
    obtain ⟨new, -, step⟩ := step_withUnread (arg2 := s.arg2) (latch := v) (events := events) (record := record)
      next executes
    have kept : t.withUnread s.arg2 v events (record ++ new) =
        { t with ioPrev := v, ioEvents := events, anomalies := record ++ new } := by rw [← arg2]; rfl
    exact ⟨v, events, record ++ new, step.trans (congrArg _ kept)⟩

/-- A 2-byte instruction is held whatever ARG2 is. -/
theorem Executes.withArg2 {s : State} {i : Instr} (h : Executes s i) (phase : s.phase = .p2) (v : Byte) :
    Executes { s with arg2 := v } i := by
  have short := h.needs2_eq_false phase
  obtain ⟨running, held, executes⟩ := h
  obtain ⟨o, opcode, -⟩ := fetchedInstr_prim held
  rw [needs2_of_ok opcode, beq_eq_false_iff_ne] at short
  have other := fetchedInstr_of_ok (s := { s with arg2 := v }) opcode
  rw [if_neg short] at other
  rw [fetchedInstr_of_ok opcode, if_neg short] at held
  exact ⟨running, other.trans held, executes⟩

/-- Settles O28: phase 2 of a 2-byte instruction executes it, and its meaning reads no ARG2. -/
theorem twoByteInstructionsIgnoreArg2 : Obligations.TwoByteInstructionsIgnoreArg2 := by
  intro s t v phase short h
  rcases step_cases h with ⟨faulted, rfl⟩ | ⟨-, other, -⟩ | ⟨-, other, -⟩ | ⟨-, -, three, -⟩ | ⟨-, other | other, -⟩ |
    ⟨i, executes, next⟩
  case inl => exact step_of_faulted faulted
  case inr.inr.inr.inl => rw [short] at three; cases three
  case inr.inr.inr.inr.inr =>
    obtain ⟨-, -, -, latch, events, -⟩ := (exec_form_of_next next).hidden
    obtain ⟨new, notes, step⟩ := step_withUnread (latch := s.ioPrev) (events := s.ioEvents) (record := s.anomalies) next
      (executes.withArg2 phase v)
    have kept : t.withUnread v s.ioPrev s.ioEvents (s.anomalies ++ new) = { t with arg2 := v } := by
      rw [← latch, ← events, ← notes]; rfl
    exact step.trans (congrArg _ kept)
  all_goals rw [phase] at other; cases other

end Sys2Proof.Machine
end

section
/-! The instruction cycle (40_cycle.md R121): from phase 0 the fetch phases load the instruction at PC, and its execute
phases lead back to phase 0. -/

namespace Sys2Proof.Machine

/-- The state after phase 0 on a defined opcode. -/
def State.afterOpcode (s : State) : State := s.opcodeFetched.at .p1

/-- The state after phases 0 and 1. -/
def State.afterArg1 (s : State) : State := fetchArg1 s.afterOpcode

/-- The state after phases 0, 1 and 2 of a 3-byte instruction. -/
def State.afterArg2 (s : State) : State := fetchArg2 s.afterArg1

theorem afterOpcode_pc (s : State) : s.afterOpcode.pc = s.pc + 1 := opcodeFetched_pc s

theorem afterArg1_pc (s : State) : s.afterArg1.pc = s.pc + 2 := by
  rw [State.afterArg1, fetchArg1_pc, afterOpcode_pc, BitVec.add_assoc]
  rfl

theorem afterArg2_pc (s : State) : s.afterArg2.pc = s.pc + 3 := by
  rw [State.afterArg2, fetchArg2_pc, afterArg1_pc, BitVec.add_assoc]
  rfl

theorem afterArg1_arg1 (s : State) : s.afterArg1.arg1 = memRead (s.pc + 1) s :=
  congrArg (memRead · s) (afterOpcode_pc s)

theorem afterArg2_arg2 (s : State) : s.afterArg2.arg2 = memRead (s.pc + 2) s :=
  congrArg (memRead · s) (afterArg1_pc s)

/-- After `k` steps the counter holds `k` and the core runs. -/
def CountsTo (s : State) (k : Nat) : Prop := ∃ t, runFor k s = .next t ∧ t.phase.number = k ∧ t.faulted = false

/-- What the fetch phases of the instruction `i` at PC leave: the state `f` of its execute phase. -/
structure Fetched (s : State) (i : Instr) (f : State) : Prop where
  run : runFor i.length s = .next f
  counts : ∀ k, k ≤ i.length → CountsTo s k
  executes : Executes f i
  arg2 : f.arg2 = if i.length = 3 then memRead (s.pc + 2) s else s.arg2
  pc : f.pc = s.pc + BitVec.ofNat 16 i.length
  phase : f.phase = if i.length = 3 then .p3 else .p2
  frame : f = { s.opcodeFetched with
    arg1 := memRead (s.pc + 1) s, arg2 := f.arg2, pch := f.pch, pcl := f.pcl, phase := f.phase }

section

variable {s : State} (running : s.faulted = false) (phase : s.phase = .p0) {o : Opcode}
  (opcode : decodeOpcode Config.params (memRead s.pc s) = .ok o)
include running phase opcode

theorem runFor_one : runFor 1 s = .next s.afterOpcode := by
  rw [runFor_succ (k := 0) rfl, step_of_phase_zero running phase, fetchOpcode_of_ok opcode, State.afterOpcode]

theorem runFor_two : runFor 2 s = .next s.afterArg1 := by
  rw [runFor_succ (runFor_one running phase opcode), step_of_phase_one (s := s.afterOpcode) running rfl, State.afterArg1]

theorem runFor_three (three : o.prim.length = 3) : runFor 3 s = .next s.afterArg2 := by
  have needs : needs2 Config.params s.afterArg1.ir = true := (needs2_of_ok opcode).trans (beq_iff_eq.2 three)
  rw [runFor_succ (runFor_two running phase opcode), step_of_phase_two (s := s.afterArg1) running rfl needs,
    State.afterArg2]

theorem countsTo_two : ∀ k, k ≤ 2 → CountsTo s k
  | 0, _ => ⟨s, rfl, by rw [phase]; rfl, running⟩
  | 1, _ => ⟨_, runFor_one running phase opcode, rfl, running⟩
  | 2, _ => ⟨_, runFor_two running phase opcode, rfl, running⟩

theorem countsTo_three (three : o.prim.length = 3) : ∀ k, k ≤ 3 → CountsTo s k
  | 3, _ => ⟨_, runFor_three running phase opcode three, rfl, running⟩
  | 0, _ => countsTo_two running phase opcode 0 (by decide)
  | 1, _ => countsTo_two running phase opcode 1 (by decide)
  | 2, _ => countsTo_two running phase opcode 2 (by decide)

theorem fetched_two (two : o.prim.length = 2) :
    Fetched s (o.instr (memRead (s.pc + 1) s) 0) s.afterArg1 := by
  have length : (o.instr (memRead (s.pc + 1) s) 0).length = 2 := (o.instr_length _ _).trans two
  have held := fetchedInstr_of_ok (s := s.afterArg1) opcode
  rw [afterArg1_arg1, if_neg (by omega)] at held
  refine ⟨?_, ?_, ⟨running, held, beq_iff_eq.2 length⟩, ?_, ?_, ?_, ?_⟩
  · rw [length]; exact runFor_two running phase opcode
  · rw [length]; exact countsTo_two running phase opcode
  · rw [length]; rfl
  · rw [length]; exact afterArg1_pc s
  · rw [length]; rfl
  · rw [← afterArg1_arg1]; rfl

theorem fetched_three (three : o.prim.length = 3) :
    Fetched s (o.instr (memRead (s.pc + 1) s) (memRead (s.pc + 2) s)) s.afterArg2 := by
  have length : (o.instr (memRead (s.pc + 1) s) (memRead (s.pc + 2) s)).length = 3 := (o.instr_length _ _).trans three
  have held := fetchedInstr_of_ok (s := s.afterArg2) opcode
  rw [show s.afterArg2.arg1 = memRead (s.pc + 1) s from afterArg1_arg1 s, afterArg2_arg2, if_pos three] at held
  refine ⟨?_, ?_, ⟨running, held, beq_iff_eq.2 length⟩, ?_, ?_, ?_, ?_⟩
  · rw [length]; exact runFor_three running phase opcode three
  · rw [length]; exact countsTo_three running phase opcode three
  · rw [length]; exact afterArg2_arg2 s
  · rw [length]; exact afterArg2_pc s
  · rw [length]; rfl
  · rw [← afterArg1_arg1]; rfl

end

/-- The fetch phases load the instruction whose bytes stand at PC. -/
theorem exists_fetched {s : State} {i : Instr} {rest : List Byte} (running : s.faulted = false) (phase : s.phase = .p0)
    (read : decode Config.params [memRead s.pc s, memRead (s.pc + 1) s, memRead (s.pc + 2) s] = .ok (i, rest)) :
    ∃ f, Fetched s i f := by
  obtain ⟨b, o, arg1, opcode, ⟨two, bytes, rfl⟩ | ⟨arg2, three, bytes, rfl⟩⟩ := decode_ok_cases read
  case inl =>
    obtain ⟨rfl, rfl, -⟩ := by simpa only [List.cons.injEq] using bytes
    exact ⟨_, fetched_two running phase opcode two⟩
  case inr =>
    obtain ⟨rfl, rfl, rfl, -⟩ := by simpa only [List.cons.injEq] using bytes
    exact ⟨_, fetched_three running phase opcode three⟩

/-- ADD and ADC are the two instructions with a flag phase. -/
theorem exec_of_hasFlagPhase {i : Instr} (h : hasFlagPhase i.opcode.prim = true) :
    ∃ d o, exec i = addOp Config.params d o ∨ exec i = adcOp Config.params d o := by
  cases i with
  | addRR d r => exact ⟨d, .reg r, .inl rfl⟩
  | addRI d b => exact ⟨d, .imm b, .inl rfl⟩
  | adcRR d r => exact ⟨d, .reg r, .inr rfl⟩
  | adcRI d b => exact ⟨d, .imm b, .inr rfl⟩
  | _ => cases h

theorem exec_arithmetic {i : Instr} (h : hasFlagPhase i.opcode.prim = true) {s : State} (phase : s.phase = .p3) :
    ∃ t, exec i s = .next t ∧ t.phase = .p4 ∧ RegistersOnly s t := by
  obtain ⟨d, o, add | adc⟩ := exec_of_hasFlagPhase h
  · obtain ⟨t, next, -, -, -, phase, frame⟩ := addOp_sumWritten phase d o
    exact ⟨t, add ▸ next, phase, frame⟩
  · obtain ⟨t, next, -, -, -, phase, frame⟩ := adcOp_sumWritten phase d o
    exact ⟨t, adc ▸ next, phase, frame⟩

theorem exec_comparison {i : Instr} (h : hasFlagPhase i.opcode.prim = true) {s : State} (phase : s.phase = .p4) :
    ∃ t, exec i s = .next t ∧ t.phase = .p0 ∧ RegistersOnly s t := by
  obtain ⟨d, o, add | adc⟩ := exec_of_hasFlagPhase h
  · obtain ⟨t, next, -, -, phase, frame⟩ := addOp_comparisonOred phase d o
    exact ⟨t, add ▸ next, phase, frame⟩
  · obtain ⟨t, next, -, -, phase, frame⟩ := adcOp_comparisonOred phase d o
    exact ⟨t, adc ▸ next, phase, frame⟩

/-- After the arithmetic of ADD or ADC the same instruction executes in phase 4. -/
theorem Executes.flagPhase {s t : State} {i : Instr} (h : Executes s i) (flags : hasFlagPhase i.opcode.prim = true)
    (phase : t.phase = .p4) (kept : RegistersOnly s t) : Executes t i := by
  obtain ⟨running, held, -⟩ := h
  obtain ⟨-, -, -, ⟨ir, arg1, arg2, -⟩, faulted, -⟩ := kept
  refine ⟨faulted.trans running, ?_, by rw [phase]; exact flags⟩
  rw [fetchedInstr, ir, arg1, arg2]
  exact held

/-- ADD and ADC have three bytes, so their arithmetic is phase 3. -/
theorem Fetched.phase_of_hasFlagPhase {s f : State} {i : Instr} (h : Fetched s i f)
    (flags : hasFlagPhase i.opcode.prim = true) : i.length = 3 ∧ f.phase = .p3 := by
  have three : i.length = 3 := hasFlagPhase_length flags
  exact ⟨three, h.phase.trans (if_pos three)⟩

/-- Settles O6: the fetched state of `exists_fetched` executes the instruction, and so does the one after the arithmetic of
ADD and ADC. -/
theorem stepRunsTheDecodedInstruction : Obligations.StepRunsTheDecodedInstruction := by
  intro s i rest running phase read
  obtain ⟨f, fetched⟩ := exists_fetched running phase read
  have frame := fetched.frame
  refine ⟨f, fetched.run, step_of_executes fetched.executes, fun flags t next => ?again, (congrArg State.ir frame :),
    (congrArg State.arg1 frame :), fetched.arg2, fetched.pc, fetched.phase, (congrArg State.ioPrev frame :),
    (congrArg State.ioEvents frame :), memRead_congr (congrArg State.mem frame :),
    fun r => (congrArg (fun u : State => u.regs.get r) frame :), (congrArg State.sp frame :),
    (congrArg State.anomalies frame :), ⟨(congrArg State.faulted frame :), (congrArg State.fault frame :)⟩,
    (congrArg State.addA frame :), (congrArg State.addB frame :)⟩
  case again =>
    obtain ⟨t', next', phase, kept⟩ := exec_arithmetic flags (fetched.phase_of_hasFlagPhase flags).2
    obtain rfl : t' = t := Host.Outcome.next.inj (next'.symm.trans next)
    exact step_of_executes (fetched.executes.flagPhase flags phase kept)

/-- How a phase that stores at `a` ends: in phase 0, or, where `a` is in ROM, in the abort that records it. -/
def StoreEnds (a : Addr) (s t : State) : Prop :=
  (0x8000 ≤ a.toNat → t.phase = .p0 ∧ SameStop s t) ∧
    (a.toNat < 0x8000 → t.phase = s.phase ∧ t.faulted = true ∧ t.fault = some (.romWrite a))

theorem AbortedWith.storeEnds {a : Addr} {s t : State} (rom : a.toNat < 0x8000) (h : AbortedWith (.romWrite a) s t) :
    StoreEnds a s t := by
  obtain ⟨faulted, fault, -, -, -, -, phase⟩ := h
  exact ⟨fun ram => absurd rom (Nat.not_lt.2 ram), fun _ => ⟨phase, faulted, fault⟩⟩

theorem swOp_storeEnds (r : Byte) (o : AddrOperand) (s : State) :
    ∃ t, swOp Config.params r o s = .next t ∧ StoreEnds (addrVal s o) s t := by
  by_cases rom : (addrVal s o).toNat < 0x8000
  case pos =>
    obtain ⟨t, next, aborted, -⟩ := swOp_aborts (s := s) r o rom
    exact ⟨t, next, aborted.storeEnds rom⟩
  case neg =>
    rw [swOp_params, memWrite_params_of_not_rom (Nat.not_lt.1 rom)]
    exact ⟨_, rfl, fun _ => ⟨rfl, rfl, rfl⟩, fun inside => absurd inside rom⟩

theorem pushOp_storeEnds (o : Operand) (s : State) :
    ∃ t, pushOp Config.params o s = .next t ∧ StoreEnds (s.sp - 1) s t := by
  by_cases rom : (s.sp - 1).toNat < 0x8000
  case pos =>
    obtain ⟨t, next, aborted, -⟩ := pushOp_aborts (s := s) o rom
    exact ⟨t, next, aborted.storeEnds rom⟩
  case neg =>
    rw [pushOp_params, pushByte_params, addNotes_sp, if_neg (mt (lt_ramBase_iff _).1 rom)]
    exact ⟨_, rfl, fun _ => ⟨rfl, rfl, rfl⟩, fun inside => absurd inside rom⟩

/-- The execute phase of an instruction that stores. -/
theorem exec_of_storeAddr {i : Instr} {s : State} {a : Addr} (h : storeAddr i s = some a) :
    ∃ t, exec i s = .next t ∧ StoreEnds a s t := by
  cases i with
  | swMR r rh rl =>
    rw [storeAddr, readAddr_params_fst] at h
    cases h
    exact swOp_storeEnds r (.regs rh rl) s
  | swMI r hi lo => cases h; exact swOp_storeEnds r (.imm hi lo) s
  | pushSR r => cases h; exact pushOp_storeEnds (.reg r) s
  | pushSI b => cases h; exact pushOp_storeEnds (.imm b) s
  | _ => cases h

theorem storeAddr_of_sw {i : Instr} (h : i.opcode.prim = .sw) (s : State) : ∃ a, storeAddr i s = some a := by
  cases i with
  | swMR | swMI => exact ⟨_, rfl⟩
  | _ => cases h

/-- An execute phase that stores nothing aborts nothing. -/
theorem ExecForm.ends_of_no_store {i : Instr} {s t : State} (h : ExecForm i s t) (none : storeAddr i s = none) :
    SameStop s t ∧ (t.phase = .p0 ∨ t.phase = .p4 ∧ hasFlagPhase i.opcode.prim = true) := by
  cases h
  case summed flagPhase _ _ => exact ⟨⟨rfl, rfl⟩, .inr ⟨rfl, flagPhase⟩⟩
  case storeAborted prim =>
    obtain ⟨a, some⟩ := storeAddr_of_sw prim s
    rw [some] at none
    cases none
  case pushAborted form _ _ _ => rcases form with ⟨b, rfl, -⟩ | ⟨b, rfl, -⟩ <;> cases none
  all_goals exact ⟨⟨rfl, rfl⟩, .inl rfl⟩

theorem storeAddr_of_hasFlagPhase {i : Instr} (h : hasFlagPhase i.opcode.prim = true) (s : State) :
    storeAddr i s = none := by
  cases i with
  | addRR | addRI | adcRR | adcRI => rfl
  | _ => cases h

/-- The steps of the table are the fetches, the execute phase and, for ADD and ADC, the flag phase. -/
theorem stepCount_eq (k : Primitive) : stepCount k = k.length + 1 + if hasFlagPhase k = true then 1 else 0 := by
  cases k <;> rfl

section

variable {s f : State} {i : Instr} (h : Fetched s i f)
include h

/-- ADD and ADC: both execute phases, and phase 0 after them. -/
theorem Fetched.run_flagPhase (flags : hasFlagPhase i.opcode.prim = true) :
    (∀ k, k < i.length + 2 → CountsTo s k) ∧
      ∃ u, runFor (i.length + 2) s = .next u ∧ u.phase = .p0 ∧ SameStop f u := by
  obtain ⟨three, phase⟩ := h.phase_of_hasFlagPhase flags
  obtain ⟨t, next, phase_t, kept⟩ := exec_arithmetic flags phase
  obtain ⟨u, last, phase_u, -, -, -, -, faulted_u, fault_u⟩ := exec_comparison flags phase_t
  have four : runFor (i.length + 1) s = .next t := by
    rw [runFor_succ h.run, step_of_executes h.executes, next]
  have executes := h.executes.flagPhase flags phase_t kept
  obtain ⟨-, -, -, -, faulted, fault⟩ := kept
  refine ⟨fun k below => ?_, u, ?_, phase_u, faulted_u.trans faulted, fault_u.trans fault⟩
  · by_cases last : k = i.length + 1
    · exact last ▸ ⟨t, four, by rw [phase_t, three]; rfl, executes.1⟩
    · exact h.counts k (by omega)
  · rw [runFor_succ four, step_of_executes executes, last]

/-- Every other instruction: its execute phase is the last step. -/
theorem Fetched.run_execute {u : State} (next : exec i f = .next u) : runFor (i.length + 1) s = .next u := by
  rw [runFor_succ h.run, step_of_executes h.executes, next]

end

/-- Settles O7, by whether the instruction has a flag phase and, where it has none, whether it stores. -/
theorem instructionTakesItsStepCount : Obligations.InstructionTakesItsStepCount := by
  intro s i rest running phase read
  obtain ⟨f, fetched⟩ := exists_fetched running phase read
  have fault : f.fault = s.fault := (congrArg State.fault fetched.frame :)
  have faulted : f.faulted = false := fetched.executes.1
  rw [stepCount_eq]
  by_cases flags : hasFlagPhase i.opcode.prim = true
  case pos =>
    obtain ⟨counts, u, run, phase_u, faulted_u, fault_u⟩ := fetched.run_flagPhase flags
    rw [if_pos flags]
    refine ⟨counts, f, u, fetched.run, run, fun _ => ⟨phase_u, faulted_u.trans faulted, fault_u.trans fault⟩, ?_⟩
    rw [storeAddr_of_hasFlagPhase flags]
    nofun
  case neg =>
    rw [if_neg flags]
    refine ⟨fun k below => fetched.counts k (Nat.le_of_lt_succ below), f, ?_⟩
    cases store : storeAddr i f with
    | some a =>
      obtain ⟨u, next, outside, inside⟩ := exec_of_storeAddr store
      refine ⟨u, fetched.run, fetched.run_execute next, fun ram => ?_, ?_⟩
      · obtain ⟨phase_u, faulted_u, fault_u⟩ := outside (ram a rfl)
        exact ⟨phase_u, faulted_u.trans faulted, fault_u.trans fault⟩
      · rintro _ ⟨⟩ rom
        exact inside rom
    | none =>
      obtain ⟨u, next, form⟩ := exec_form i f
      obtain ⟨⟨faulted_u, fault_u⟩, phase_u⟩ := form.ends_of_no_store store
      have zero := phase_u.resolve_right fun flagPhase => flags flagPhase.2
      exact ⟨u, fetched.run, fetched.run_execute next,
        fun _ => ⟨zero, faulted_u.trans faulted, fault_u.trans fault⟩, nofun⟩

end Sys2Proof.Machine
end
